-- ==== Sys2Proof/Word.lean ====
section
/-!
DEFINITION. The words of the engine: bytes, 32-bit command words and 32-byte digests
(spec/00_scope.md rules R10 and R11).
-/

namespace Sys2Proof

/-- 8 bits, an unsigned value 0 to 255 (R11). -/
abbrev Byte := BitVec 8

/-- One command word (R53). -/
abbrev Word := BitVec 32

/-- `STATE_BYTES`, `CACHE_BYTES` (R10): the size of a digest, of `state` and of the output cache. -/
abbrev digestBytes : Nat := 32

/-- 32 bytes, index 0 the first byte of the digest as the hash unit returned it (R10, R19). -/
abbrev Digest := Vector Byte digestBytes

/-- `0^32` (R11). -/
def zeroDigest : Digest := Vector.replicate digestBytes 0

end Sys2Proof
end

