-- ==== Sys2Proof/Syntax.lean ====
section
/-!
DEFINITION. The command set FGP-1 (spec/30_encoding.md rules R53 to R58): four commands, each with a context
slot number CTX and a byte count LEN.
-/

namespace Sys2Proof

/-- One command, one constructor per row of spec/opcode_table.json. `ctx` is CTX, a natural number (R57); `len`
is LEN, a natural number counting bytes (R56). INIT and FLIP carry the LEN that they ignore, so that every word
has a term of its own (R58). -/
inductive Instr where
  /-- OP 00: create or re-create the context in a slot (R67); `len` is ignored. -/
  | init (ctx len : Nat)
  /-- OP 01: absorb `len` bytes from DIN (R70). -/
  | inject (ctx len : Nat)
  /-- OP 10: finalize (R74); `len` is ignored. -/
  | flip (ctx len : Nat)
  /-- OP 11: squeeze `len` bytes to DOUT (R77). -/
  | extract (ctx len : Nat)
deriving DecidableEq, Repr

namespace Instr

/-- The CTX field (R57). -/
def ctx : Instr → Nat
  | .init c _ => c
  | .inject c _ => c
  | .flip c _ => c
  | .extract c _ => c

/-- The LEN field (R56, R58). -/
def len : Instr → Nat
  | .init _ n => n
  | .inject _ n => n
  | .flip _ n => n
  | .extract _ n => n

end Instr

end Sys2Proof
end

