-- ==== Sys2Proof/WellFormed.lean ====
section
/-!
DEFINITION. Which terms of Instr are commands of the hardware: those whose fields fit the command word
(spec/30_encoding.md rules R54, R56, R57), and which of those are canonical (R58).
-/

namespace Sys2Proof.Instr

/-- CTX fits its 6 bits and LEN its 24 bits (R54, R56, R57). No other check exists: every word is legal (R59). -/
def wellFormed (i : Instr) : Bool :=
  decide (i.ctx < 2 ^ 6) && decide (i.len < 2 ^ 24)

/-- `i` is a command of the hardware. -/
abbrev WellFormed (i : Instr) : Prop := i.wellFormed = true

/-- The canonical encoding of INIT and FLIP has LEN = 0 (R58); every INJECT and EXTRACT is canonical. -/
def isCanonical : Instr → Bool
  | .init _ n => n == 0
  | .inject _ _ => true
  | .flip _ n => n == 0
  | .extract _ _ => true

end Sys2Proof.Instr
end

