-- ==== Sys2Proof/Decode.lean ====
section
/-!
DEFINITION. Decoding a command word and encoding a command (spec/30_encoding.md rules R53 to R59), and the byte
listing of a word (spec/20_memory.md rule R36). Decoding a word is total and cannot fail (R59); only a byte
listing that ends inside a word is rejected, by name.
-/

namespace Sys2Proof

/-- `OP`, bits 31:30 (R54). -/
def opField (w : Word) : BitVec 2 := w.extractLsb' 30 2

/-- `CTX`, `zext(w[29:24])` (R57). -/
def ctxField (w : Word) : Nat := (w.extractLsb' 24 6).toNat

/-- `LEN`, `zext(w[23:0])` (R56). -/
def lenField (w : Word) : Nat := (w.extractLsb' 0 24).toNat

/-- The command a word stands for: the opcode map of R55 on the two bits of OP. -/
def decode (w : Word) : Instr :=
  match (opField w).getLsbD 1, (opField w).getLsbD 0 with
  | false, false => .init (ctxField w) (lenField w)
  | false, true => .inject (ctxField w) (lenField w)
  | true, false => .flip (ctxField w) (lenField w)
  | true, true => .extract (ctxField w) (lenField w)

/-- The value of OP that stands for a command (R55). -/
def opcode : Instr → BitVec 2
  | .init _ _ => 0
  | .inject _ _ => 1
  | .flip _ _ => 2
  | .extract _ _ => 3

/-- The word with the fields OP, CTX and LEN (R54). -/
def packWord (op : BitVec 2) (ctx len : Nat) : Word :=
  op ++ BitVec.ofNat 6 ctx ++ BitVec.ofNat 24 len

/-- The word of a command (R54, R55). Meant for well-formed commands; fields that do not fit lose their high bits. -/
def encode (i : Instr) : Word := packWord (opcode i) i.ctx i.len

/-- The `mask` that all four rows of the opcode map share (R55). -/
def rowMask : Word := 0xc0000000

/-- The `match` value of a command's row of the opcode map (R55). -/
def rowMatch : Instr → Word
  | .init _ _ => 0x00000000
  | .inject _ _ => 0x40000000
  | .flip _ _ => 0x80000000
  | .extract _ _ => 0xc0000000

/-- Why a byte listing is not a listing of command words. -/
inductive DecodeError where
  /-- The bytes end inside a word of four bytes. -/
  | truncatedWord
deriving DecidableEq, Repr

/-- The word of four listed bytes, most significant byte first (R36). -/
def wordOfBytes (b3 b2 b1 b0 : Byte) : Word := b3 ++ b2 ++ b1 ++ b0

/-- The four bytes of a word in a listing, most significant byte first (R36). -/
def bytesOfWord (w : Word) : List Byte :=
  [w.extractLsb' 24 8, w.extractLsb' 16 8, w.extractLsb' 8 8, w.extractLsb' 0 8]

/-- The first command of a byte listing, and the rest of the listing. -/
def decodeBytes : List Byte → Except DecodeError (Instr × List Byte)
  | b3 :: b2 :: b1 :: b0 :: rest => .ok (decode (wordOfBytes b3 b2 b1 b0), rest)
  | _ => .error .truncatedWord

/-- The byte listing of a command. -/
def encodeBytes (i : Instr) : List Byte := bytesOfWord (encode i)

/-- The word whose low `nbits` bits are those of `w`, bit 0 the least significant, and whose other bits are 0. -/
def tableWord (nbits w : Nat) : Word := BitVec.ofNat 32 (w % 2 ^ nbits)

/-- What the decoder reads from a row of spec/opcode_table.json whose bits are `w`. A word is delivered whole on CMD
(R36), so no byte order enters. There is one length, 32 bits (R53): more bits are no command. -/
def decodeTableWord (nbits w : Nat) : Option Instr :=
  if nbits ≤ 32 then some (decode (tableWord nbits w)) else none

end Sys2Proof
end

