-- ==== Sys2Proof/Config.lean ====
section
/-!
DEFINITION. What an implementation fixes (spec/00_scope.md rules R7, R8, R9) and the values that
hardware reset leaves unspecified (spec/10_state.md rule R31). Every constant here without a body is
uninterpreted: nothing can be proved of its value, so a claim holds whatever it is.
-/

namespace Sys2Proof.Config

/-- The three open parameters of the engine. The meanings are written over a `Params`, so that a test can run
them on the fixture of spec/95_test_vectors.md; `exec` runs them on `Config.params`. -/
structure Params where
  /-- `MAX_BUFFER_SIZE` (R7). -/
  maxBufferSize : Nat
  /-- `NCTX` (R9). -/
  nctx : Nat
  /-- `Hash256` (R8): total and deterministic, nothing else is assumed of it. -/
  hash256 : List Byte → Digest

/-- The constraints of R7 and R9. -/
def Params.Legal (P : Params) : Prop :=
  1 ≤ P.maxBufferSize ∧ P.maxBufferSize ≤ 2 ^ 24 - 2 ∧ 1 ≤ P.nctx ∧ P.nctx ≤ 64

/-- `MAX_BUFFER_SIZE - 1`. OPEN (decision D14): any of the 2^24 - 2 values that R7 allows. -/
opaque maxBufferSizeLessOne : Fin 16777214

/-- `NCTX - 1`. OPEN (decision D6): any of the 64 values that R9 allows. -/
opaque nctxLessOne : Fin 64

/-- `Hash256`. OPEN (decision D15): uninterpreted (R8, R46). -/
opaque hash256 : List Byte → Digest

/-- `MAX_BUFFER_SIZE` of this implementation (R7). -/
def maxBufferSize : Nat := maxBufferSizeLessOne.val + 1

/-- `NCTX` of this implementation (R9). -/
def nctx : Nat := nctxLessOne.val + 1

/-- The parameters of this implementation. -/
def params : Params where
  maxBufferSize := maxBufferSize
  nctx := nctx
  hash256 := hash256

/-! The free values of R31/R120: what a field of a slot holds after the hardware reset of the given number, in
the slot of the given number. Notes: notes/assumptions/5.md. -/

/-- `finalized` after reset number `r` in slot `c`. -/
opaque unspecifiedFinalized (r c : Nat) : Bool

/-- Byte `a` of `inputBuffer` after reset number `r` in slot `c`. -/
opaque unspecifiedInputByte (r c a : Nat) : Byte

/-- `bufferLength` after reset number `r` in slot `c`. -/
opaque unspecifiedBufferLength (r c : Nat) : Nat

/-- `state` after reset number `r` in slot `c`. -/
opaque unspecifiedState (r c : Nat) : Digest

/-- `counter` after reset number `r` in slot `c`. -/
opaque unspecifiedCounter (r c : Nat) : BitVec 64

/-- `outputCache` after reset number `r` in slot `c`. -/
opaque unspecifiedCache (r c : Nat) : Digest

/-- `outputCachePosition` (6 bits, R14) after reset number `r` in slot `c`. -/
opaque unspecifiedCachePosition (r c : Nat) : BitVec 6

/-- `outputCacheLength` (6 bits, R14) after reset number `r` in slot `c`. -/
opaque unspecifiedCacheLength (r c : Nat) : BitVec 6

end Sys2Proof.Config
end

