-- ==== Sys2Proof/Machine/State.lean ====
section
/-!
DEFINITION. The state of the engine (spec/10_state.md rules R14 to R31; the channels of spec/20_memory.md rules R39
to R45; the reset input of spec/70_reset_and_hazards.md rule R120), the reasons a step can stop, and the state after
hardware reset.
-/

namespace Sys2Proof.Machine

/-- The bytes of a storage space that differ from what an unlisted address reads as, addresses strictly rising. -/
abbrev Memory := List Host.Cell

/-- The 2-bit completion code of a command (R61); the codes are in Flags.lean. -/
inductive Status where
  /-- The command had its effect. -/
  | ok
  /-- CTX names no slot (R105). -/
  | invalidArgument
  /-- The slot's phase does not allow the command (R106). -/
  | invalidState
  /-- The payload of an INJECT does not fit (R107). -/
  | capacityExceeded
deriving DecidableEq, Repr

/-- One PrngContext, the content of a slot (R14): exactly the nine fields of the spec's record. -/
structure PrngContext where
  /-- INIT has completed on the slot since the last hardware reset (R15). -/
  initialized : Bool
  /-- FLIP has completed in this lifecycle (R16). -/
  finalized : Bool
  /-- The space IB(c), MAX_BUFFER_SIZE bytes (R17, R32). -/
  inputBuffer : Memory
  /-- Count of valid bytes in `inputBuffer` (R18). -/
  bufferLength : Nat
  /-- The finalized digest (R19). -/
  state : Digest
  /-- Index of the next output block (R20). -/
  counter : BitVec 64
  /-- The space OC(c): the last generated block (R21). -/
  outputCache : Digest
  /-- The next unread offset into `outputCache` (R22). -/
  outputCachePosition : Nat
  /-- The number of valid bytes in `outputCache`, 0 or 32 (R23). -/
  outputCacheLength : Nat
deriving DecidableEq, Repr

/-- The engine: its slots and what stands on its channels. -/
structure State where
  /-- The NCTX slots (R9, R25). -/
  slots : List PrngContext
  /-- CMD: words put by the host and not yet taken, oldest first (R40). -/
  cmd : List Word
  /-- DIN: payload bytes put by the host and not yet taken, oldest first (R41). -/
  din : List Byte
  /-- RSP: the statuses put since reset, oldest first (R42). -/
  rsp : List Status
  /-- DOUT: the output bytes put since reset, oldest first (R43). -/
  dout : List Byte
  /-- Hash port: the messages of the requests made since reset, oldest first (R44, R45). -/
  hashRequests : List (List Byte)
  /-- The hardware reset input is asserted (R120). -/
  resetInput : Bool
  /-- The host takes the statuses it is offered (R47 c, R126). -/
  rspReady : Bool
  /-- The host takes the output bytes it is offered (R47 c, R126). -/
  doutReady : Bool
  /-- THE MODEL'S OWN: how many hardware resets the reset input has caused; it picks the free values of the next. -/
  resets : Nat
deriving DecidableEq, Repr

/-- Why a step stops. A fault is a STUCK state or an access that the spec does not define, never one of the engine's
three errors: those are statuses (R104). -/
inductive Fault where
  /-- Raised by INJECT while DIN holds fewer than LEN bytes: the engine waits and has no step (R126). Safe. -/
  | waitingForPayload
  /-- Raised by any command while the host does not take its status: the engine waits (R126). Safe. -/
  | waitingForRsp
  /-- Raised by an EXTRACT with output bytes while the host does not take them: the engine waits (R126). Safe. -/
  | waitingForDout
  /-- Raised by an access to IB(c) outside its MAX_BUFFER_SIZE bytes, which R12 does not define; only in states
  that break R92, which no run reaches. Safe. -/
  | bufferAddress
  /-- Raised by an access to OC(c) outside its 32 bytes, which R12 does not define; only in states that break R93,
  which no run reaches. Safe. -/
  | cacheAddress
deriving DecidableEq, Repr

/-- Why a command has no meaning. -/
inductive Refusal where
  /-- Raised by `exec` for a command that has no meaning yet (none is left). Safe. -/
  | notModelled (mnemonic : String)
deriving DecidableEq, Repr

/-- What a command or a step answers. -/
abbrev Answer := Host.Outcome State Fault Refusal

/-- A slot after hardware reset (R31): `initialized` is 0. DESIGN CHOICE: the other fields, which the spec leaves
unspecified, are zero here (notes/assumptions/3.md); no rule reads them. -/
def PrngContext.atReset : PrngContext where
  initialized := false
  finalized := false
  inputBuffer := []
  bufferLength := 0
  state := zeroDigest
  counter := 0
  outputCache := zeroDigest
  outputCachePosition := 0
  outputCacheLength := 0

/-- The engine of parameters `P` right after hardware reset (R31, R120): every slot Uninitialized, every channel
empty. DESIGN CHOICE: the host is ready and the reset input is no longer asserted. -/
def State.resetOn (P : Config.Params) : State where
  slots := List.replicate P.nctx PrngContext.atReset
  cmd := []
  din := []
  rsp := []
  dout := []
  hashRequests := []
  resetInput := false
  rspReady := true
  doutReady := true
  resets := 0

/-- The engine right after hardware reset (R31, R120). -/
def State.reset : State := State.resetOn Config.params

end Sys2Proof.Machine
end

