-- ==== Sys2Proof/Machine/Flags.lean ====
section
/-!
DEFINITION. The two flag bits of a slot, the phase they make up (spec/10_state.md rules R15, R16, R26, R27), the
tests that the commands make on them, and the status codes (spec/30_encoding.md rule R61).
-/

namespace Sys2Proof.Machine

/-- The phase of a slot (R26). -/
inductive Phase where
  /-- Never initialised since reset: only INIT is allowed. -/
  | uninitialized
  /-- Absorbing: INJECT and FLIP are allowed. -/
  | accumulating
  /-- Squeezing: EXTRACT is allowed. -/
  | finalized
deriving DecidableEq, Repr

/-- The phase as a function of `initialized` and `finalized` (the table of R26). -/
def phaseOfFlags : Bool → Bool → Phase
  | false, _ => .uninitialized
  | true, false => .accumulating
  | true, true => .finalized

/-- The phase of a slot (R26). -/
def phaseOf (x : PrngContext) : Phase := phaseOfFlags x.initialized x.finalized

/-- The phase test of INJECT, FLIP and EXTRACT: InvalidState unless the slot is in the phase the command needs
(R106; the transition table R89). It looks at no operand. -/
def requirePhase (want : Phase) (x : PrngContext) : Option Status :=
  if phaseOf x = want then none else some .invalidState

/-- The capacity test of INJECT, on the true sum (R71, R107). -/
def requireRoom (P : Config.Params) (n : Nat) (x : PrngContext) : Option Status :=
  if x.bufferLength + n > P.maxBufferSize then some .capacityExceeded else none

/-- The first error of two tests in order (R109: InvalidState before CapacityExceeded). -/
def firstError (a b : Option Status) : Option Status :=
  match a with
  | some e => some e
  | none => b

/-- The 2-bit code of a status on RSP (R61). -/
def statusCode : Status → BitVec 2
  | .ok => 0
  | .invalidArgument => 1
  | .invalidState => 2
  | .capacityExceeded => 3

/-- The status of a 2-bit code (R61). -/
def statusOfCode (b : BitVec 2) : Status :=
  match b.getLsbD 1, b.getLsbD 0 with
  | false, false => .ok
  | false, true => .invalidArgument
  | true, false => .invalidState
  | true, true => .capacityExceeded

end Sys2Proof.Machine
end

