-- ==== Sys2Proof/Machine/Operands.lean ====
section
/-!
DEFINITION. What a command's operands and a slot's fields stand for: the slot that CTX names
(spec/30_encoding.md rule R57, spec/60_exceptions.md rule R105), the leftover bytes (spec/10_state.md rule R23), the
serialised counter and the block message (spec/20_memory.md rule R35).
-/

namespace Sys2Proof.Machine

/-- The content of the slot that CTX = `c` names: one of the first NCTX, or `none` where `c >= NCTX` (R57, R105). -/
def namedSlot (P : Config.Params) (s : State) (c : Nat) : Option PrngContext := (s.slots.take P.nctx)[c]?

/-- The number of leftover bytes, `outputCacheLength - outputCachePosition` (R23). By R86 and R93 the difference is
never negative; in states that break R93 this is 0 and EXTRACT drains nothing, as its test `a > 0` says. -/
def leftover (x : PrngContext) : Nat := x.outputCacheLength - x.outputCachePosition

/-- `BE64` of a 64-bit value: its 8 bytes, most significant first (R11, R35). -/
def be64 (n : BitVec 64) : List Byte :=
  [n.extractLsb' 56 8, n.extractLsb' 48 8, n.extractLsb' 40 8, n.extractLsb' 32 8,
   n.extractLsb' 24 8, n.extractLsb' 16 8, n.extractLsb' 8 8, n.extractLsb' 0 8]

/-- The block message `state ‖ BE64(counter)`, 40 bytes (R35, R79 i). -/
def blockMessage (state : Digest) (counter : BitVec 64) : List Byte := state.toList ++ be64 counter

end Sys2Proof.Machine
end

