-- ==== Sys2Proof/Machine/Ops.lean ====
section
/-!
DEFINITION. The named operations over the storage spaces, the slots and the channels (spec/00_scope.md rule R12,
spec/20_memory.md rules R33, R34, R39 to R45), completing a command with a status, the entry of an error
(spec/60_exceptions.md rule R110) and hardware reset (spec/70_reset_and_hazards.md rule R120).
-/

namespace Sys2Proof.Machine

/-! ### Bytes of a storage space -/

/-- What an address that a `Memory` does not list reads as: 0x00, what INIT writes everywhere (R67).
DESIGN CHOICE before the first INIT (notes/assumptions/9.md). -/
def unlistedByte : Byte := 0

/-- The byte at an address. -/
def readByte : Memory → Nat → Byte
  | [], _ => unlistedByte
  | (b, v) :: rest, a => if a = b then v else readByte rest a

/-- Store one byte, keeping the canonical form. -/
def writeByte : Memory → Nat → Byte → Memory
  | [], a, v => if v = unlistedByte then [] else [(a, v)]
  | (b, w) :: rest, a, v =>
    if a < b then (if v = unlistedByte then (b, w) :: rest else (a, v) :: (b, w) :: rest)
    else if a = b then (if v = unlistedByte then rest else (a, v) :: rest)
    else (b, w) :: writeByte rest a v

/-- The `n` bytes from address `a` upward. -/
def readBytes (m : Memory) (a n : Nat) : List Byte := (List.range n).map fun i => readByte m (a + i)

/-- Store a sequence of bytes from address `a` upward, `data[0]` at `a` (R35). -/
def writeBytes : Memory → Nat → List Byte → Memory
  | m, _, [] => m
  | m, a, v :: rest => writeBytes (writeByte m a v) (a + 1) rest

/-- Addresses strictly rising from `lo` on, and no entry equal to what an unlisted address reads as. -/
def Memory.wfFrom : Nat → Memory → Bool
  | _, [] => true
  | lo, (a, v) :: rest => decide (lo ≤ a) && (v != unlistedByte) && Memory.wfFrom (a + 1) rest

/-- The canonical form of a `Memory`. -/
def Memory.wf (m : Memory) : Bool := Memory.wfFrom 0 m

/-- IB(c) with every byte 0x00, as INIT writes it (R67). -/
def zeroedBuffer : Memory := []

/-- `MemRead(IB(c), a, n)`, defined only for `a + n <= MAX_BUFFER_SIZE` (R12). -/
def ibRead (P : Config.Params) (m : Memory) (a n : Nat) : Except Fault (List Byte) :=
  if a + n ≤ P.maxBufferSize then .ok (readBytes m a n) else .error .bufferAddress

/-- `MemWrite(IB(c), a, len(data), data)`, defined only for `a + len(data) <= MAX_BUFFER_SIZE` (R12). -/
def ibWrite (P : Config.Params) (m : Memory) (a : Nat) (data : List Byte) : Except Fault Memory :=
  if a + data.length ≤ P.maxBufferSize then .ok (writeBytes m a data) else .error .bufferAddress

/-- `outputCache[a..a+n)`. -/
def cacheSlice (oc : Digest) (a n : Nat) : List Byte := (oc.toList.drop a).take n

/-- `MemRead(OC(c), a, n)`, defined only for `a + n <= 32` (R12). -/
def ocRead (oc : Digest) (a n : Nat) : Except Fault (List Byte) :=
  if a + n ≤ digestBytes then .ok (cacheSlice oc a n) else .error .cacheAddress

/-! ### Slots -/

/-- `ctx[c] <- x`: replace the content of slot `c`, and of no other (R25). -/
def setSlot (c : Nat) (x : PrngContext) (s : State) : State := { s with slots := s.slots.set c x }

/-! ### Channels -/

/-- Put one status on RSP (R42). -/
def putStatus (e : Status) (s : State) : State := { s with rsp := s.rsp ++ [e] }

/-- `DoutPut(out)`: put bytes on DOUT, `out[0]` first (R43). -/
def putBytes (out : List Byte) (s : State) : State := { s with dout := s.dout ++ out }

/-- Put requests on the hash port, in order (R44, R45). -/
def putRequests (reqs : List (List Byte)) (s : State) : State :=
  { s with hashRequests := s.hashRequests ++ reqs }

/-- `DinTake(n)`: the next `n` bytes of DIN in arrival order and the state without them; `none` while DIN holds fewer
(R41, R126). -/
def takePayload (n : Nat) (s : State) : Option (List Byte × State) :=
  if s.din.length < n then none else some (s.din.take n, { s with din := s.din.drop n })

/-- `HashCall(M)`: one request with message `M`; the answer is `Hash256(M)` (R12, R44, R46). -/
def hashCall (P : Config.Params) (M : List Byte) (s : State) : Digest × State :=
  (P.hash256 M, putRequests [M] s)

/-! ### Completing a command -/

/-- Complete a command with a status: put it on RSP (R42). While the host does not take it the engine waits (R126). -/
def respond (e : Status) (s : State) : Answer :=
  if s.rspReady then .next (putStatus e s) else .fault .waitingForRsp

/-- `done OK`. -/
def complete (s : State) : Answer := respond .ok s

/-- ERROR ENTRY, `raise E` (R12, R110): complete with the status of the error; no field of any slot changes, no hash
request is made, no byte is put on DOUT. `s` is the state of the command so far: an INJECT has taken its payload
(R41), nothing else has happened. Nothing is saved, so there is no return from an error and nothing to restore (R111):
the engine is ready for the next command. -/
def raise (e : Status) (s : State) : Answer := respond e s

/-- Complete an EXTRACT with OK: first the status on RSP, then the bytes of `out` on DOUT (R42, R43). While the host
does not take one of them the engine waits (R126). -/
def completeWithBytes (out : List Byte) (s : State) : Answer :=
  if s.rspReady then
    if s.doutReady || out.isEmpty then .next (putBytes out (putStatus .ok s)) else .fault .waitingForDout
  else .fault .waitingForRsp

/-! ### Hardware reset -/

/-- What slot `c` holds after hardware reset number `r`: `initialized` is 0 and every other field is a free value
(R31, R120). -/
def unspecifiedContext (P : Config.Params) (r c : Nat) : PrngContext where
  initialized := false
  finalized := Config.unspecifiedFinalized r c
  inputBuffer := writeBytes [] 0 ((List.range P.maxBufferSize).map (Config.unspecifiedInputByte r c))
  bufferLength := Config.unspecifiedBufferLength r c
  state := Config.unspecifiedState r c
  counter := Config.unspecifiedCounter r c
  outputCache := Config.unspecifiedCache r c
  outputCachePosition := (Config.unspecifiedCachePosition r c).toNat
  outputCacheLength := (Config.unspecifiedCacheLength r c).toNat

/-- Hardware reset of the engine (R120): every slot Uninitialized, the four host channels and the hash port empty.
What the host is ready to take is the host's own and stays. -/
def hardwareReset (P : Config.Params) (s : State) : State :=
  { s with
    slots := (List.range s.slots.length).map (unspecifiedContext P s.resets)
    cmd := [], din := [], rsp := [], dout := [], hashRequests := []
    resetInput := false
    resets := s.resets + 1 }

/-! ### The host's side -/

/-- The host puts a command word on CMD and the payload that goes with it on DIN (R40, R41, R47 b). -/
def hostPut (w : Word) (payload : List Byte) (s : State) : State :=
  { s with cmd := s.cmd ++ [w], din := s.din ++ payload }

/-- The host asserts the hardware reset input (R120). -/
def hostReset (s : State) : State := { s with resetInput := true }

/-! ### Taking a command -/

/-- Take the oldest word from CMD (R40): the command it stands for and the state without it; `none` where CMD is empty
and the engine idles (R133). -/
def fetchCommand (s : State) : Option (Instr × State) :=
  match s.cmd with
  | [] => none
  | w :: rest => some (decode w, { s with cmd := rest })

/-- The payload that goes with a command the model itself places: LEN bytes of 0x00 for an INJECT (R62), none for the
others. -/
def placedPayload : Instr → List Byte
  | .init _ _ => []
  | .inject _ n => List.replicate n 0
  | .flip _ _ => []
  | .extract _ _ => []

/-- The word of a row of spec/opcode_table.json as the next item of CMD, its payload as the next bytes of DIN, and no
reset asserted, so that the next step runs that command. -/
def placeWord (nbits w : Nat) (s : State) : State :=
  { s with
    cmd := tableWord nbits w :: s.cmd
    din := placedPayload (decode (tableWord nbits w)) ++ s.din
    resetInput := false }

end Sys2Proof.Machine
end

