-- ==== Sys2Proof/Machine/Extract.lean ====
section
/-!
DEFINITION. EXTRACT, squeeze, and the counter-mode block generator (spec/43_extract.md rules R77 to R84).
-/

namespace Sys2Proof.Machine

/-- What a part of an EXTRACT has done: the slot after it, the bytes for DOUT, the messages of its hash requests. -/
structure Squeezed where
  /-- The slot's content after it. -/
  slot : PrngContext
  /-- The bytes it appended to the output. -/
  out : List Byte
  /-- The messages of its hash requests, in order. -/
  requests : List (List Byte)
deriving DecidableEq, Repr

/-- Step 1, the leftover drain: up to `need` unread bytes of the output cache, advancing the cursor (R78). -/
def drain (need : Nat) (x : PrngContext) : Except Fault Squeezed :=
  if 0 < leftover x then
    (ocRead x.outputCache x.outputCachePosition (min need (leftover x))).map fun out =>
      { slot := { x with outputCachePosition := x.outputCachePosition + min need (leftover x) }
        out := out
        requests := [] }
  else .ok { slot := x, out := [], requests := [] }

/-- One iteration of the block generator (R79 i to v) that still needs `need` bytes. The counter wraps modulo 2^64
(R80). -/
def generateBlock (P : Config.Params) (need : Nat) (x : PrngContext) : Squeezed :=
  let message := blockMessage x.state x.counter
  let block := P.hash256 message
  { slot := { x with
      outputCache := block
      outputCacheLength := digestBytes
      outputCachePosition := min need digestBytes
      counter := x.counter + 1 }
    out := cacheSlice block 0 (min need digestBytes)
    requests := [message] }

/-- Steps 2 and 3: generate blocks while bytes are still needed (R79). `fuel` bounds the rounds: every round lowers
`need` by at least 1, so `fuel = need` is enough. -/
def generateBlocks (P : Config.Params) : Nat → Nat → PrngContext → Squeezed
  | 0, _, x => { slot := x, out := [], requests := [] }
  | fuel + 1, need, x =>
    if need = 0 then { slot := x, out := [], requests := [] }
    else
      let first := generateBlock P need x
      let rest := generateBlocks P fuel (need - min need digestBytes) first.slot
      { slot := rest.slot, out := first.out ++ rest.out, requests := first.requests ++ rest.requests }

/-- The whole of R77 on a Finalized slot: drain, then generate what is still needed. -/
def squeeze (P : Config.Params) (need : Nat) (x : PrngContext) : Except Fault Squeezed :=
  (drain need x).map fun first =>
    let still := need - first.out.length
    let rest := generateBlocks P still still first.slot
    { slot := rest.slot, out := first.out ++ rest.out, requests := first.requests ++ rest.requests }

/-- EXTRACT of `len` bytes from slot `c` (R77). -/
def extractOn (P : Config.Params) (c len : Nat) (s : State) : Answer :=
  match namedSlot P s c with
  | none => raise .invalidArgument s
  | some x =>
    match requirePhase .finalized x with
    | some e => raise e s
    | none =>
      match squeeze P len x with
      | .error f => .fault f
      | .ok r => completeWithBytes r.out (putRequests r.requests (setSlot c r.slot s))

/-- EXTRACT (R77). -/
def execExtract (c len : Nat) (s : State) : Answer := extractOn Config.params c len s

end Sys2Proof.Machine
end

