-- ==== Sys2Proof/Machine/Flip.lean ====
section
/-!
DEFINITION. FLIP, finalize (spec/42_flip.md rules R74 to R76).
-/

namespace Sys2Proof.Machine

/-- What a successful FLIP writes, given the digest of the absorbed bytes (R74). `inputBuffer`, `bufferLength` and the
bytes of `outputCache` stay (R75). -/
def finalizeContext (d : Digest) (x : PrngContext) : PrngContext :=
  { x with
    state := d
    finalized := true
    counter := 0
    outputCachePosition := 0
    outputCacheLength := 0 }

/-- FLIP of slot `c` (R74). LEN is ignored (R58). -/
def flipOn (P : Config.Params) (c _len : Nat) (s : State) : Answer :=
  match namedSlot P s c with
  | none => raise .invalidArgument s
  | some x =>
    match requirePhase .accumulating x with
    | some e => raise e s
    | none =>
      match ibRead P x.inputBuffer 0 x.bufferLength with
      | .error f => .fault f
      | .ok M =>
        match hashCall P M s with
        | (d, s1) => complete (setSlot c (finalizeContext d x) s1)

/-- FLIP (R74). -/
def execFlip (c len : Nat) (s : State) : Answer := flipOn Config.params c len s

end Sys2Proof.Machine
end

