-- ==== Sys2Proof/Machine/Init.lean ====
section
/-!
DEFINITION. INIT (spec/40_init.md rules R67 to R69).
-/

namespace Sys2Proof.Machine

/-- What INIT leaves in its slot, whatever the slot held (R67; the column "Value after INIT" of R31). -/
def freshContext : PrngContext where
  initialized := true
  finalized := false
  inputBuffer := zeroedBuffer
  bufferLength := 0
  state := zeroDigest
  counter := 0
  outputCache := zeroDigest
  outputCachePosition := 0
  outputCacheLength := 0

/-- INIT of slot `c` on the engine of parameters `P` (R67). LEN is ignored (R58). -/
def initOn (P : Config.Params) (c _len : Nat) (s : State) : Answer :=
  match namedSlot P s c with
  | none => raise .invalidArgument s
  | some _ => complete (setSlot c freshContext s)

/-- INIT (R67). -/
def execInit (c len : Nat) (s : State) : Answer := initOn Config.params c len s

end Sys2Proof.Machine
end

