-- ==== Sys2Proof/Machine/Inject.lean ====
section
/-!
DEFINITION. INJECT, absorb (spec/41_inject.md rules R70 to R73).
-/

namespace Sys2Proof.Machine

/-- The errors of INJECT on a slot, in the order tested: InvalidState, then CapacityExceeded (R70, R109). -/
def injectError (P : Config.Params) (n : Nat) (x : PrngContext) : Option Status :=
  firstError (requirePhase .accumulating x) (requireRoom P n x)

/-- Append the payload to `inputBuffer` and advance `bufferLength` (R33, R70). -/
def absorb (P : Config.Params) (data : List Byte) (x : PrngContext) : Except Fault PrngContext :=
  (ibWrite P x.inputBuffer x.bufferLength data).map fun m =>
    { x with inputBuffer := m, bufferLength := x.bufferLength + data.length }

/-- INJECT of `len` bytes into slot `c` (R70). The payload is taken first, whatever the status (R41). -/
def injectOn (P : Config.Params) (c len : Nat) (s : State) : Answer :=
  match takePayload len s with
  | none => .fault .waitingForPayload
  | some (data, s1) =>
    match namedSlot P s1 c with
    | none => raise .invalidArgument s1
    | some x =>
      match injectError P len x with
      | some e => raise e s1
      | none =>
        match absorb P data x with
        | .error f => .fault f
        | .ok y => complete (setSlot c y s1)

/-- INJECT (R70). -/
def execInject (c len : Nat) (s : State) : Answer := injectOn Config.params c len s

end Sys2Proof.Machine
end

