-- ==== Sys2Proof/Machine/Dispatch.lean ====
section
/-!
DEFINITION. One arm per command, each a direct call of the command's meaning.
-/

namespace Sys2Proof.Machine

def exec (i : Instr) (s : State) : Host.Outcome State Fault Refusal :=
  match i with
  | .init ctx len => Sys2Proof.Machine.execInit ctx len s
  | .inject ctx len => Sys2Proof.Machine.execInject ctx len s
  | .flip ctx len => Sys2Proof.Machine.execFlip ctx len s
  | .extract ctx len => Sys2Proof.Machine.execExtract ctx len s

end Sys2Proof.Machine
end

