-- ==== Sys2Proof/Machine/Step.lean ====
section
/-!
DEFINITION. One step of the engine: one whole command transaction (spec/20_memory.md rules R39, R40, R49).
-/

namespace Sys2Proof.Machine

/-- One step. A hardware reset that the host asserts is taken between commands (R120); else the oldest word of CMD is
taken and its command runs to completion (R40); with no word there the engine idles and its state stays (R133). -/
def step (s : State) : Host.Outcome State Fault Refusal :=
  if s.resetInput then .next (hardwareReset Config.params s)
  else
    match fetchCommand s with
    | none => .next s
    | some (i, s1) => exec i s1

/-- `s` with the given word as the next command of CMD (and, for an INJECT, LEN payload bytes of 0x00 as the next bytes
of DIN), so that the next step takes and runs it. -/
def State.withFetchWord (s : State) (nbits w : Nat) : State := placeWord nbits w s

end Sys2Proof.Machine
end

