-- ==== Sys2Proof/Machine/Assembler.lean ====
section
/-!
DEFINITION. The textual notation of commands (spec/30_encoding.md rule R64, decision D23): a line of text to a command
and its payload and back; and the commands that make up a request longer than one LEN field (rule R66). No rule of the
engine depends on this file.
-/

namespace Sys2Proof.Machine

/-- Why a line of text is not a command in the notation of R64. -/
inductive AsmError where
  /-- No such mnemonic. -/
  | unknownMnemonic
  /-- No decimal number 0 .. 63 where `<ctx>` belongs. -/
  | badContext
  /-- No number 0 .. 16777215 where `<len>` belongs. -/
  | badLength
  /-- `init` or `flip` with a length of 0, which is written without it. -/
  | zeroIgnoredLength
  /-- Neither a quoted string nor `hex:` with an even number of digits. -/
  | badPayload
  /-- More payload bytes than LEN can count. -/
  | payloadTooLong
  /-- Something that is neither an operand nor a comment. -/
  | trailingText
deriving DecidableEq, Repr

/-- The largest LEN, `2^24 - 1` (R56). -/
def maxLen : Nat := 16777215

/-- What may stand between the parts of a line. DESIGN CHOICE: blanks and tabs. -/
def isBlank (c : Char) : Bool := c == ' ' || c == '\t'

/-- A text without its leading blanks. -/
def skipBlanks (t : List Char) : List Char := t.dropWhile isBlank

/-- Only blanks, or a comment, which `;` starts (R64). -/
def endsLine (t : List Char) : Bool :=
  match skipBlanks t with
  | [] => true
  | c :: _ => c == ';'

/-- The value of a hexadecimal digit. -/
def hexDigit (c : Char) : Option Nat :=
  if '0' ≤ c ∧ c ≤ '9' then some (c.toNat - '0'.toNat)
  else if 'a' ≤ c ∧ c ≤ 'f' then some (c.toNat - 'a'.toNat + 10)
  else if 'A' ≤ c ∧ c ≤ 'F' then some (c.toNat - 'A'.toNat + 10)
  else none

/-- The value of a digit in the given base. -/
def digitIn (base : Nat) (c : Char) : Option Nat := (hexDigit c).filter fun d => d < base

/-- The number that a run of digits writes, most significant digit first. -/
def numberOfDigits (base : Nat) (ds : List Char) : Nat :=
  ds.foldl (fun n c => base * n + (digitIn base c).getD 0) 0

/-- The longest run of digits at the start of a text as a number, and the rest; `none` where there is no digit. -/
def readDigits (base : Nat) (t : List Char) : Option (Nat × List Char) :=
  let ds := t.takeWhile fun c => (digitIn base c).isSome
  if ds.isEmpty then none
  else some (numberOfDigits base ds, t.dropWhile fun c => (digitIn base c).isSome)

/-- `<ctx>`: a decimal number 0 .. 63 (R64). -/
def readContext (t : List Char) : Except AsmError (Nat × List Char) :=
  match readDigits 10 (skipBlanks t) with
  | some (n, rest) => if n < 64 then .ok (n, rest) else .error .badContext
  | none => .error .badContext

/-- A decimal number, or `0x` and hexadecimal digits. -/
def readNumber : List Char → Option (Nat × List Char)
  | '0' :: 'x' :: t => readDigits 16 t
  | t => readDigits 10 t

/-- `<len>`: a number 0 .. 16777215 (R64). -/
def readLength (t : List Char) : Except AsmError (Nat × List Char) :=
  match readNumber (skipBlanks t) with
  | some (n, rest) => if n ≤ maxLen then .ok (n, rest) else .error .badLength
  | none => .error .badLength

/-- What follows a comma, if one comes next. -/
def afterComma (t : List Char) : Option (List Char) :=
  match skipBlanks t with
  | ',' :: rest => some rest
  | _ => none

/-- The bytes of a quoted string after its opening quote, each character its ASCII code; `\"` and `\\` are the only
escapes (R64). -/
def readQuoted : List Char → Option (List Byte × List Char)
  | [] => none
  | '"' :: rest => some ([], rest)
  | '\\' :: '"' :: rest => (readQuoted rest).map fun r => (0x22 :: r.1, r.2)
  | '\\' :: '\\' :: rest => (readQuoted rest).map fun r => (0x5c :: r.1, r.2)
  | '\\' :: _ => none
  | c :: rest =>
    if ' ' ≤ c ∧ c ≤ '~' then (readQuoted rest).map fun r => (BitVec.ofNat 8 c.toNat :: r.1, r.2) else none

/-- Pairs of hexadecimal digits, first byte first; `none` where the number of digits is odd (R64). -/
def readHexPairs : List Char → Option (List Byte × List Char)
  | [] => some ([], [])
  | [a] => if (hexDigit a).isSome then none else some ([], [a])
  | a :: b :: rest =>
    match hexDigit a, hexDigit b with
    | some h, some l => (readHexPairs rest).map fun r => (BitVec.ofNat 8 (16 * h + l) :: r.1, r.2)
    | some _, none => none
    | none, _ => some ([], a :: b :: rest)

/-- `<payload>` (R64). -/
def readPayload (t : List Char) : Except AsmError (List Byte × List Char) :=
  match skipBlanks t with
  | '"' :: rest => (readQuoted rest).elim (.error .badPayload) .ok
  | 'h' :: 'e' :: 'x' :: ':' :: rest => (readHexPairs rest).elim (.error .badPayload) .ok
  | _ => .error .badPayload

/-- A command with the rest of its line, which must end. -/
def endCommand (i : Instr) (payload : List Byte) (rest : List Char) : Except AsmError (Option (Instr × List Byte)) :=
  if endsLine rest then .ok (some (i, payload)) else .error .trailingText

/-- The operands of `init` and `flip`: `<ctx>`, and a `<len>` only where it is not 0 (R58, R64). -/
def assembleIgnoringLength (mk : Nat → Nat → Instr) (t : List Char) :
    Except AsmError (Option (Instr × List Byte)) := do
  let (c, t1) ← readContext t
  match afterComma t1 with
  | none => endCommand (mk c 0) [] t1
  | some t2 =>
    let (n, t3) ← readLength t2
    if n = 0 then .error .zeroIgnoredLength else endCommand (mk c n) [] t3

/-- The operands of `inject`: `<ctx>, <payload>`; LEN is the number of payload bytes (R64). -/
def assembleInject (t : List Char) : Except AsmError (Option (Instr × List Byte)) := do
  let (c, t1) ← readContext t
  match afterComma t1 with
  | none => .error .badPayload
  | some t2 =>
    let (payload, t3) ← readPayload t2
    if payload.length ≤ maxLen then endCommand (.inject c payload.length) payload t3
    else .error .payloadTooLong

/-- The operands of `extract`: `<ctx>, <len>` (R64). -/
def assembleExtract (t : List Char) : Except AsmError (Option (Instr × List Byte)) := do
  let (c, t1) ← readContext t
  match afterComma t1 with
  | none => .error .badLength
  | some t2 =>
    let (n, t3) ← readLength t2
    endCommand (.extract c n) [] t3

/-- One line: the command and the payload it puts on DIN, or nothing for a blank line or a comment. Mnemonics are
case-insensitive (R64). -/
def assemble (line : List Char) : Except AsmError (Option (Instr × List Byte)) :=
  let t := skipBlanks line
  if endsLine t then .ok none
  else
    let rest := t.dropWhile Char.isAlpha
    match (t.takeWhile Char.isAlpha).map Char.toLower with
    | ['i', 'n', 'i', 't'] => assembleIgnoringLength .init rest
    | ['i', 'n', 'j', 'e', 'c', 't'] => assembleInject rest
    | ['f', 'l', 'i', 'p'] => assembleIgnoringLength .flip rest
    | ['e', 'x', 't', 'r', 'a', 'c', 't'] => assembleExtract rest
    | _ => .error .unknownMnemonic

/-- A number in decimal. -/
def showNumber (n : Nat) : List Char := Nat.toDigits 10 n

/-- A byte as two hexadecimal digits. -/
def showByte (b : Byte) : List Char := [Nat.digitChar (b.toNat / 16), Nat.digitChar (b.toNat % 16)]

/-- `, ` between two operands. -/
def showComma : List Char := [',', ' ']

/-- `<ctx>`, and the ignored LEN where it is not 0 (R58). -/
def showIgnoringLength (c n : Nat) : List Char :=
  showNumber c ++ if n = 0 then [] else showComma ++ showNumber n

/-- A spelling of a command with its payload in the notation of R64, the ignored LEN of INIT and FLIP as R58 says.
DESIGN CHOICE (notes/assumptions/17.md): of the spellings that R64 allows this prints mnemonics in lower case, one blank
after the mnemonic and after a comma, LEN in decimal, and every payload as `hex:` with lower-case digits, never quoted.
An INJECT is printed from the payload given, whose length R64 makes its LEN; where that length is not the command's LEN,
the LEN is not shown. -/
def disassemble (i : Instr) (payload : List Byte) : List Char :=
  match i with
  | .init c n => ['i', 'n', 'i', 't', ' '] ++ showIgnoringLength c n
  | .inject c _ =>
    ['i', 'n', 'j', 'e', 'c', 't', ' '] ++ showNumber c ++ showComma ++ ['h', 'e', 'x', ':'] ++ payload.flatMap showByte
  | .flip c n => ['f', 'l', 'i', 'p', ' '] ++ showIgnoringLength c n
  | .extract c n => ['e', 'x', 't', 'r', 'a', 'c', 't', ' '] ++ showNumber c ++ showComma ++ showNumber n

/-- The LEN values of the commands that together request `n` bytes: as many full ones as fit, then the rest (R66). -/
def splitLengths (n : Nat) : List Nat :=
  List.replicate (n / maxLen) maxLen ++ if n % maxLen = 0 then [] else [n % maxLen]

/-- The EXTRACT commands that together request `n` bytes of slot `c` (R66). -/
def extractRequest (c n : Nat) : List Instr := (splitLengths n).map (.extract c)

end Sys2Proof.Machine
end

