-- ==== Sys2Proof/Safety.lean ====
section
/-!
DEFINITION. What the claims about the engine speak of: the stream of a state and positions in it
(spec/44_laws_and_properties.md rules R95 and R96), the invariants of the slots (rules R92 to R94), and states that
agree on everything the spec gives a value (rule R98, spec/10_state.md rule R31).
-/

namespace Sys2Proof.Machine

/-! ### The stream (R95) -/

/-- `H_j(s)`: output block `j` of the stream of the 32-byte value `s`. -/
def blockAt (P : Config.Params) (s : Digest) (j : BitVec 64) : Digest := P.hash256 (blockMessage s j)

/-- Byte `t` of `Stream(s)`, the block index read modulo 2^64 (R95; R96 for positions past the wrap). -/
def streamByte (P : Config.Params) (s : Digest) (t : Nat) : Byte :=
  (blockAt P s (BitVec.ofNat 64 (t / 32)))[t % 32]'(Nat.mod_lt t (by decide))

/-- `Stream(s)[t .. t + n)`. -/
def streamSlice (P : Config.Params) (s : Digest) (t n : Nat) : List Byte :=
  (List.range n).map fun i => streamByte P s (t + i)

/-- `ceil(n / 32)` (R11). -/
def blocksFor (n : Nat) : Nat := (n + 31) / 32

/-- The blocks of `m` hash requests with counters `j`, `j + 1`, ... modulo 2^64, one after the other. -/
def blockBytes (P : Config.Params) (s : Digest) (j : BitVec 64) (m : Nat) : List Byte :=
  (List.range m).flatMap fun i => (blockAt P s (j + BitVec.ofNat 64 i)).toList

/-- The messages of `m` hash requests with counters `j`, `j + 1`, ... modulo 2^64 (R82). -/
def blockRequests (s : Digest) (j : BitVec 64) (m : Nat) : List (List Byte) :=
  (List.range m).map fun i => blockMessage s (j + BitVec.ofNat 64 i)

/-- The slot has delivered `t` bytes since its FLIP: the position invariant R96, counter and block indices read modulo
2^64. -/
def AtPosition (P : Config.Params) (x : PrngContext) (t : Nat) : Prop :=
  if t = 0 then
    x.counter = 0 ∧ x.outputCacheLength = 0 ∧ x.outputCachePosition = 0
  else
    x.counter = BitVec.ofNat 64 (blocksFor t) ∧
    x.outputCacheLength = 32 ∧
    x.outputCache = blockAt P x.state (BitVec.ofNat 64 (blocksFor t - 1)) ∧
    x.outputCachePosition = t - 32 * (blocksFor t - 1)

/-! ### Invariants (R92 to R94) -/

/-- The bytes absorbed so far, `inputBuffer[0..bufferLength)`. -/
def absorbed (x : PrngContext) : List Byte := readBytes x.inputBuffer 0 x.bufferLength

/-- The space IB(c) is in canonical form and lists no address outside its MAX_BUFFER_SIZE bytes (R32). -/
def BufferOk (P : Config.Params) (m : Memory) : Prop :=
  Memory.wf m = true ∧ ∀ cell ∈ m, cell.1 < P.maxBufferSize

/-- What holds of a slot in the Accumulating phase (R93, R94). -/
def AccumulatingOk (x : PrngContext) : Prop :=
  x.state = zeroDigest ∧ x.counter = 0 ∧ x.outputCache = zeroDigest ∧
  x.outputCachePosition = 0 ∧ x.outputCacheLength = 0

/-- The cache cursor in the Finalized phase (R93): no block generated yet, or the cache holds the block before the one
that `counter` is the index of, with 1 to 32 of its bytes delivered. -/
def CursorOk (P : Config.Params) (x : PrngContext) : Prop :=
  (x.counter = 0 ∧ x.outputCachePosition = 0 ∧ x.outputCacheLength = 0) ∨
  (x.outputCacheLength = 32 ∧ 1 ≤ x.outputCachePosition ∧ x.outputCachePosition ≤ 32 ∧
    x.outputCache = blockAt P x.state (x.counter - 1))

/-- The part of the cursor's invariant that keeps EXTRACT inside OC(c): `outputCachePosition ≤ outputCacheLength ≤ 32`
(R34, R93). -/
def CursorInRange (x : PrngContext) : Prop :=
  x.outputCachePosition ≤ x.outputCacheLength ∧ x.outputCacheLength ≤ 32

/-- What holds of a slot in the Finalized phase (R93, R94). -/
def FinalizedOk (P : Config.Params) (x : PrngContext) : Prop :=
  x.state = P.hash256 (absorbed x) ∧ CursorOk P x

/-- The invariants R92 to R94 of one slot. They speak of slots with `initialized = 1`; the form of IB(c) holds of
every slot. -/
def SlotOk (P : Config.Params) (x : PrngContext) : Prop :=
  BufferOk P x.inputBuffer ∧
  (x.initialized = true → x.bufferLength ≤ P.maxBufferSize) ∧
  (phaseOf x = .accumulating → AccumulatingOk x) ∧
  (phaseOf x = .finalized → FinalizedOk P x)

/-- The engine's invariant: NCTX slots (R9), each with its invariants. -/
def EngineOk (P : Config.Params) (s : State) : Prop :=
  s.slots.length = P.nctx ∧ ∀ x ∈ s.slots, SlotOk P x

/-! ### What the spec leaves unspecified (R31) -/

/-- Two contents of a slot that differ at most in fields the spec leaves unspecified: both never initialised since reset,
or equal. -/
def AgreeSlot (x y : PrngContext) : Prop :=
  (x.initialized = false ∧ y.initialized = false) ∨ x = y

/-- Two states that differ at most in unspecified fields of Uninitialized slots. -/
def Agree (s t : State) : Prop :=
  s.slots.length = t.slots.length ∧
  (∀ (c : Nat) (x y : PrngContext), s.slots[c]? = some x → t.slots[c]? = some y → AgreeSlot x y) ∧
  s.cmd = t.cmd ∧ s.din = t.din ∧ s.rsp = t.rsp ∧ s.dout = t.dout ∧ s.hashRequests = t.hashRequests ∧
  s.resetInput = t.resetInput ∧ s.rspReady = t.rspReady ∧ s.doutReady = t.doutReady ∧ s.resets = t.resets

/-! ### Commands as the host sees them -/

/-- The number of payload bytes that go with a command (R41, R62). -/
def payloadLen : Instr → Nat
  | .init _ _ => 0
  | .inject _ n => n
  | .flip _ _ => 0
  | .extract _ _ => 0

/-- The status cell of the transition table R89 for a command on a slot it names. -/
def tableStatus (P : Config.Params) : Instr → PrngContext → Status
  | .init _ _, _ => .ok
  | .inject _ n, x =>
    match phaseOf x with
    | .uninitialized => .invalidState
    | .accumulating => if x.bufferLength + n ≤ P.maxBufferSize then .ok else .capacityExceeded
    | .finalized => .invalidState
  | .flip _ _, x =>
    match phaseOf x with
    | .uninitialized => .invalidState
    | .accumulating => .ok
    | .finalized => .invalidState
  | .extract _ _, x =>
    match phaseOf x with
    | .uninitialized => .invalidState
    | .accumulating => .invalidState
    | .finalized => .ok

/-- The phase cell of the transition table R89 for a command that completes with OK. -/
def tablePhase : Instr → Phase
  | .init _ _ => .accumulating
  | .inject _ _ => .accumulating
  | .flip _ _ => .finalized
  | .extract _ _ => .finalized

/-- A sequence of commands, one after the other, stopping where one does not complete. -/
def execAll : List Instr → State → Answer
  | [], s => .next s
  | i :: rest, s =>
    match exec i s with
    | .next t => execAll rest t
    | .fault f => .fault f
    | .refused r => .refused r

/-! ### The end of a run (R133) -/

/-- The engine is idle: no command waits on CMD, no surplus payload on DIN, no reset is asserted. -/
def Idle (s : State) : Prop := s.cmd = [] ∧ s.din = [] ∧ s.resetInput = false

/-- A safe step: it answers a next state, or the engine waits for the host as R126 says. -/
def SafeAnswer (a : Answer) : Prop :=
  (∃ t, a = .next t) ∨ a = .fault .waitingForPayload ∨ a = .fault .waitingForRsp ∨ a = .fault .waitingForDout

end Sys2Proof.Machine
end

