-- ==== Sys2Proof/Certificates/Slice0/Obligations.lean ====
section
/-!
DEFINITION. The statements for the provers. They speak of `exec` and `step` on the open parameters of Config, so they
hold for every MAX_BUFFER_SIZE, NCTX and Hash256 that the spec allows.
-/

open Sys2Proof
open Sys2Proof.Machine

/-! ### Encoding (spec/30_encoding.md) -/

/-- R54, R55, R59, R64, R69 c: words written out in the spec decode to the commands they stand for. -/
def Obligations.DecodeSpecWords : Prop :=
  decode 0x00000000 = .init 0 0 ∧
  decode 0x00ffffff = .init 0 16777215 ∧
  decode 0x4000000a = .inject 0 10 ∧
  decode 0x81000000 = .flip 1 0 ∧
  decode 0xc0000020 = .extract 0 32 ∧
  decode 0xffffffff = .extract 63 16777215

/-- R55: the opcode map. A word selects a row by `(w & mask) = match`, every word selects exactly one row, and the
decoder answers that row's command with the word's CTX and LEN. -/
def Obligations.WordSelectsItsOpcodeRow : Prop :=
  ∀ w : Word,
    (w &&& 0xc0000000 = 0x00000000 ↔ decode w = .init (ctxField w) (lenField w)) ∧
    (w &&& 0xc0000000 = 0x40000000 ↔ decode w = .inject (ctxField w) (lenField w)) ∧
    (w &&& 0xc0000000 = 0x80000000 ↔ decode w = .flip (ctxField w) (lenField w)) ∧
    (w &&& 0xc0000000 = 0xc0000000 ↔ decode w = .extract (ctxField w) (lenField w)) ∧
    (w &&& 0xc0000000 = 0x00000000 ∨ w &&& 0xc0000000 = 0x40000000 ∨
     w &&& 0xc0000000 = 0x80000000 ∨ w &&& 0xc0000000 = 0xc0000000)

/-- R54: the fields of format C. As a number a word is `OP * 2^30 + CTX * 2^24 + LEN`, with a 2-bit OP, a 6-bit CTX and
a 24-bit LEN, and the encoder packs the fields at these places. -/
def Obligations.WordIsTheNumberOfItsFields : Prop :=
  (∀ w : Word,
    w.toNat = (opField w).toNat * 2 ^ 30 + ctxField w * 2 ^ 24 + lenField w ∧
    (opField w).toNat < 2 ^ 2 ∧ ctxField w < 2 ^ 6 ∧ lenField w < 2 ^ 24) ∧
  (∀ i : Instr, i.WellFormed → (encode i).toNat = (opcode i).toNat * 2 ^ 30 + i.ctx * 2 ^ 24 + i.len)

/-- R54, R55: decoding the word of a well-formed command gives the command back, for every command and every CTX and
LEN that fit. -/
def Obligations.DecodeOfEncodeIsTheCommand : Prop :=
  ∀ i : Instr, i.WellFormed → decode (encode i) = i

/-- R59: decoding is total: every word is the word of the well-formed command it decodes to. -/
def Obligations.EveryWordIsOneCommand : Prop :=
  ∀ w : Word, (decode w).WellFormed ∧ encode (decode w) = w

/-- R36: in a byte listing a word stands most significant byte first; the listing of commands decodes back, and only a
listing that ends inside a word is rejected. -/
def Obligations.ListedBytesDecode : Prop :=
  (∀ (i : Instr) (rest : List Byte), i.WellFormed → decodeBytes (encodeBytes i ++ rest) = .ok (i, rest)) ∧
  (∀ bs : List Byte, decodeBytes bs = .error .truncatedWord ↔ bs.length < 4) ∧
  encodeBytes (.inject 0 10) = [0x40, 0x00, 0x00, 0x0a]

/-- R61: every completed command puts exactly one status on RSP, and these are the 2-bit codes of the statuses. -/
def Obligations.StatusCodesOnRsp : Prop :=
  (∀ (i : Instr) (s t : State), exec i s = .next t → ∃ e, t.rsp = s.rsp ++ [e]) ∧
  statusCode .ok = 0 ∧ statusCode .invalidArgument = 1 ∧ statusCode .invalidState = 2 ∧
  statusCode .capacityExceeded = 3 ∧ ∀ e : Status, statusOfCode (statusCode e) = e

/-- R64: the examples of the assembler syntax. -/
def Obligations.AssemblesSpecExamples : Prop :=
  assemble "inject 0, \"test input\"".toList =
    .ok (some (.inject 0 10, [0x74, 0x65, 0x73, 0x74, 0x20, 0x69, 0x6e, 0x70, 0x75, 0x74])) ∧
  assemble "extract 0, 32".toList = .ok (some (.extract 0 32, [])) ∧
  assemble "flip 1".toList = .ok (some (.flip 1 0, []))

/-- R66: a request for `n` bytes is written as `ceil(n / 16777215)` commands whose LEN values fit and sum to `n`. -/
def Obligations.LongRequestSplits : Prop :=
  ∀ n : Nat, (splitLengths n).sum = n ∧ (splitLengths n).length = (n + (maxLen - 1)) / maxLen ∧
    ∀ k ∈ splitLengths n, k < 2 ^ 24

/-! ### Configuration and reset -/

/-- R7, R9: the open parameters lie in the ranges that the spec gives them. -/
def Obligations.ParametersInRange : Prop :=
  1 ≤ Config.maxBufferSize ∧ Config.maxBufferSize ≤ 2 ^ 24 - 2 ∧ 1 ≤ Config.nctx ∧ Config.nctx ≤ 64

/-- R31, R120: right after hardware reset there are NCTX slots, every one Uninitialized, and every channel is empty. -/
def Obligations.ResetLeavesSlotsUninitialized : Prop :=
  State.reset.slots.length = Config.nctx ∧
  (∀ x ∈ State.reset.slots, x.initialized = false ∧ phaseOf x = .uninitialized) ∧
  State.reset.cmd = [] ∧ State.reset.din = [] ∧ State.reset.rsp = [] ∧ State.reset.dout = [] ∧
  State.reset.hashRequests = []

/-- The engine's invariant holds of the reset state. Its clause on the form of IB(c) rests on the content that the model
names for the unspecified buffer (notes/assumptions/3.md). -/
def Obligations.ResetStateIsOk : Prop := EngineOk Config.params State.reset

/-- R120: a step with the reset input asserted leaves every slot Uninitialized and every channel empty, in every state
and whatever was waiting. The reset input itself and the moment it is taken are the model's choice
(notes/assumptions/4.md). -/
def Obligations.HardwareResetStep : Prop :=
  ∀ s : State, s.resetInput = true →
    ∃ t, step s = .next t ∧ t.slots.length = s.slots.length ∧
      (∀ x ∈ t.slots, x.initialized = false ∧ phaseOf x = .uninitialized) ∧
      t.cmd = [] ∧ t.din = [] ∧ t.rsp = [] ∧ t.dout = [] ∧ t.hashRequests = [] ∧ t.resetInput = false

/-! ### One step -/

/-- R40: a step takes the oldest word of CMD and is the execution of the command it decodes to, on the state without
that word. -/
def Obligations.StepRunsDecodedCommand : Prop :=
  ∀ (s : State) (w : Word) (rest : List Word), s.resetInput = false → s.cmd = w :: rest →
    step s = exec (decode w) { s with cmd := rest }

/-- R133: with no command the engine idles and its state stays. That idling is a step is the model's choice
(notes/assumptions/11.md). -/
def Obligations.IdleEngineStays : Prop :=
  ∀ s : State, s.resetInput = false → s.cmd = [] → step s = .next s

/-- The next step after a word is placed runs that word's command, from every state; the payload it needs is there. That
`withFetchWord` stands for what the host puts on CMD and DIN is the model's choice (notes/assumptions/12.md). -/
def Obligations.PlacedWordRunsNext : Prop :=
  ∀ (s : State) (w : Nat), w < 2 ^ 32 →
    step (s.withFetchWord 32 w) =
      exec (decode (BitVec.ofNat 32 w))
        { s with
          din := List.replicate (payloadLen (decode (BitVec.ofNat 32 w))) 0 ++ s.din
          resetInput := false }

/-- R92 to R94 and R9: every step keeps the engine's invariant. -/
def Obligations.StepKeepsEngineOk : Prop :=
  ∀ s t : State, EngineOk Config.params s → step s = .next t → EngineOk Config.params t

/-- In a state with the invariant a step answers a next state, or the engine waits for the host (R126): no access
leaves a storage space (R33, R34) and no command is refused. That waiting is a stop with a name of its own is the
model's choice (notes/assumptions/7.md and 8.md). -/
def Obligations.StepOnlyWaitsForTheHost : Prop :=
  ∀ s : State, EngineOk Config.params s → SafeAnswer (step s)

/-! ### The transition table and the errors -/

/-- R89: the transition table. A command that names a slot completes with the status of its cell; the slot stays as it
was where that is an error, and is in the cell's phase where it is OK. -/
def Obligations.TransitionTable : Prop :=
  ∀ (i : Instr) (s : State) (x : PrngContext), EngineOk Config.params s →
    i.ctx < Config.nctx → s.slots[i.ctx]? = some x →
    s.rspReady = true → s.doutReady = true → payloadLen i ≤ s.din.length →
    ∃ t y, exec i s = .next t ∧ t.rsp = s.rsp ++ [tableStatus Config.params i x] ∧
      t.slots = s.slots.set i.ctx y ∧
      (tableStatus Config.params i x ≠ .ok → y = x) ∧
      (tableStatus Config.params i x = .ok → phaseOf y = tablePhase i)

/-- R105: InvalidArgument. Any command whose CTX is `>= NCTX` completes with it and does nothing else (an INJECT takes
its payload); a command that names a slot never does; with `NCTX = 64` it can never occur. -/
def Obligations.CtxOutOfRangeIsInvalidArgument : Prop :=
  (∀ (i : Instr) (s : State), Config.nctx ≤ i.ctx → s.rspReady = true → payloadLen i ≤ s.din.length →
    exec i s = .next { s with din := s.din.drop (payloadLen i), rsp := s.rsp ++ [.invalidArgument] }) ∧
  (∀ (i : Instr) (s t : State), i.ctx < Config.nctx → s.slots.length = Config.nctx → exec i s = .next t →
    t.rsp ≠ s.rsp ++ [.invalidArgument]) ∧
  (∀ (P : Config.Params) (i : Instr) (s : State), P.nctx = 64 → s.slots.length = P.nctx → i.WellFormed →
    namedSlot P s i.ctx ≠ none)

/-- R106: InvalidState. INJECT and FLIP on a slot that is not Accumulating and EXTRACT on a slot that is not Finalized
complete with it, whatever their LEN and payload, and do nothing else; INIT never does. -/
def Obligations.OutOfPhaseIsInvalidState : Prop :=
  (∀ (c n : Nat) (s : State) (x : PrngContext), c < Config.nctx → s.slots[c]? = some x → s.rspReady = true →
    (phaseOf x ≠ .accumulating → n ≤ s.din.length →
      exec (.inject c n) s = .next { s with din := s.din.drop n, rsp := s.rsp ++ [.invalidState] }) ∧
    (phaseOf x ≠ .accumulating → exec (.flip c n) s = .next { s with rsp := s.rsp ++ [.invalidState] }) ∧
    (phaseOf x ≠ .finalized → exec (.extract c n) s = .next { s with rsp := s.rsp ++ [.invalidState] })) ∧
  (∀ (c n : Nat) (s t : State), exec (.init c n) s = .next t → t.rsp ≠ s.rsp ++ [.invalidState])

/-- R107: CapacityExceeded. An INJECT on an Accumulating slot whose payload does not fit completes with it, takes its
payload and does nothing else; no other command and no other case raises it. -/
def Obligations.OversizedInjectIsCapacityExceeded : Prop :=
  (∀ (c n : Nat) (s : State) (x : PrngContext), c < Config.nctx → s.slots[c]? = some x →
    phaseOf x = .accumulating → Config.maxBufferSize < x.bufferLength + n →
    s.rspReady = true → n ≤ s.din.length →
    exec (.inject c n) s = .next { s with din := s.din.drop n, rsp := s.rsp ++ [.capacityExceeded] }) ∧
  (∀ (i : Instr) (s t : State), exec i s = .next t → t.rsp = s.rsp ++ [.capacityExceeded] →
    ∃ c n x, i = .inject c n ∧ s.slots[c]? = some x ∧ phaseOf x = .accumulating ∧
      Config.maxBufferSize < x.bufferLength + n)

/-- R110: error entry. A command that completes with an error changes nothing but RSP, where its status is put, and DIN,
where an INJECT takes its payload. -/
def Obligations.ErrorChangesNothing : Prop :=
  ∀ (i : Instr) (s t : State) (e : Status), exec i s = .next t → t.rsp = s.rsp ++ [e] → e ≠ .ok →
    t = { s with din := s.din.drop (payloadLen i), rsp := s.rsp ++ [e] }

/-- R112: repeating a failed command against the unchanged slots, with any payload of the same length, gives the same
error again. -/
def Obligations.FailedCommandFailsAgain : Prop :=
  ∀ (i : Instr) (s t u : State) (e : Status), exec i s = .next t → t.rsp = s.rsp ++ [e] → e ≠ .ok →
    u.slots = t.slots → u.rspReady = true → payloadLen i ≤ u.din.length →
    exec i u = .next { u with din := u.din.drop (payloadLen i), rsp := u.rsp ++ [e] }

/-! ### Channels -/

/-- R41 to R43: a completed command takes LEN bytes from DIN if it is an INJECT and none otherwise, puts one status on
RSP, and puts LEN bytes on DOUT if it is an EXTRACT that completed with OK and none otherwise. It takes no word from CMD
and moves nothing that is the host's. -/
def Obligations.CommandTraffic : Prop :=
  ∀ (i : Instr) (s t : State), exec i s = .next t →
    ∃ (e : Status) (out : List Byte),
      payloadLen i ≤ s.din.length ∧ t.din = s.din.drop (payloadLen i) ∧
      t.rsp = s.rsp ++ [e] ∧ t.dout = s.dout ++ out ∧
      (∀ c n, i = .extract c n → e = .ok → out.length = n) ∧
      ((∀ c n, i = .extract c n → e ≠ .ok) → out = []) ∧
      t.cmd = s.cmd ∧ t.resetInput = s.resetInput ∧ t.rspReady = s.rspReady ∧ t.doutReady = s.doutReady ∧
      t.resets = s.resets

/-- R45: the hash requests of a completed command. INIT, INJECT and every failed command make none; a FLIP makes one
with the absorbed bytes; an EXTRACT makes `ceil(max(0, LEN - a) / 32)` with the block messages of successive counters.
-/
def Obligations.HashRequestsOfACommand : Prop :=
  ∀ (i : Instr) (s t : State) (e : Status), exec i s = .next t → t.rsp = s.rsp ++ [e] →
    ∃ reqs, t.hashRequests = s.hashRequests ++ reqs ∧
      (e ≠ .ok → reqs = []) ∧
      (∀ c n, i = .init c n → reqs = []) ∧
      (∀ c n, i = .inject c n → reqs = []) ∧
      (∀ c n, i = .flip c n → e = .ok → ∃ x, s.slots[c]? = some x ∧ reqs = [absorbed x]) ∧
      (∀ c n, i = .extract c n → e = .ok →
        ∃ x, s.slots[c]? = some x ∧ reqs = blockRequests x.state x.counter (blocksFor (n - leftover x)))

/-- R126: the engine has no step in an INJECT while payload bytes are missing, in any command while the host does not
take its status, and in an EXTRACT with output bytes while the host does not take them. That waiting is a stop with a
name of its own is the model's choice (notes/assumptions/7.md and 8.md). -/
def Obligations.EngineWaitsForTheHost : Prop :=
  (∀ (c n : Nat) (s : State), s.din.length < n → exec (.inject c n) s = .fault .waitingForPayload) ∧
  (∀ (i : Instr) (s : State), EngineOk Config.params s → payloadLen i ≤ s.din.length → s.rspReady = false →
    exec i s = .fault .waitingForRsp) ∧
  (∀ (c n : Nat) (s : State) (x : PrngContext), EngineOk Config.params s → c < Config.nctx → s.slots[c]? = some x →
    phaseOf x = .finalized → 0 < n → s.rspReady = true → s.doutReady = false →
    exec (.extract c n) s = .fault .waitingForDout)

/-- R59, R119: no command is ever refused. -/
def Obligations.NoCommandIsRefused : Prop :=
  ∀ (i : Instr) (s : State) (r : Refusal), exec i s ≠ .refused r

/-! ### INIT (spec/40_init.md) -/

/-- R67, R58: INIT of a slot completes with OK in every phase and whatever its LEN, and leaves every field of the slot at
the value that R67 gives; nothing else changes. -/
def Obligations.InitCreatesContext : Prop :=
  ∀ (c n : Nat) (s : State), c < Config.nctx → c < s.slots.length → s.rspReady = true →
    ∃ y : PrngContext,
      exec (.init c n) s = .next { s with slots := s.slots.set c y, rsp := s.rsp ++ [.ok] } ∧
      y.initialized = true ∧ y.finalized = false ∧ (∀ a, readByte y.inputBuffer a = 0) ∧ y.bufferLength = 0 ∧
      y.state = Vector.replicate 32 0 ∧ y.counter = 0 ∧ y.outputCache = Vector.replicate 32 0 ∧
      y.outputCachePosition = 0 ∧ y.outputCacheLength = 0

/-- R68, R69 a: nothing of the previous content of the slot survives an INIT, and INIT after INIT changes no slot. -/
def Obligations.InitForgetsTheEarlierContent : Prop :=
  (∀ (c n : Nat) (s : State) (x x' : PrngContext), c < Config.nctx → c < s.slots.length →
    exec (.init c n) (setSlot c x s) = exec (.init c n) (setSlot c x' s)) ∧
  (∀ (c n n' : Nat) (s t u : State), exec (.init c n) s = .next t → exec (.init c n') t = .next u →
    u.slots = t.slots)

/-! ### INJECT (spec/41_inject.md) -/

/-- R70: INJECT of LEN bytes that fit into an Accumulating slot completes with OK: the LEN bytes taken from DIN stand
from `bufferLength` on, `bufferLength` advances by LEN, every other byte and field stays. -/
def Obligations.InjectAppendsPayload : Prop :=
  ∀ (c n : Nat) (s : State) (x : PrngContext), c < Config.nctx → s.slots[c]? = some x →
    phaseOf x = .accumulating → x.bufferLength + n ≤ Config.maxBufferSize → Memory.wf x.inputBuffer = true →
    s.rspReady = true → n ≤ s.din.length →
    ∃ m : Memory,
      exec (.inject c n) s = .next
        { s with
          slots := s.slots.set c { x with inputBuffer := m, bufferLength := x.bufferLength + n }
          din := s.din.drop n
          rsp := s.rsp ++ [.ok] } ∧
      (∀ i, i < n → some (readByte m (x.bufferLength + i)) = s.din[i]?) ∧
      (∀ a, a < x.bufferLength ∨ x.bufferLength + n ≤ a → readByte m a = readByte x.inputBuffer a) ∧
      Memory.wf m = true

/-- R72 a: INJECT of no bytes on an Accumulating slot completes with OK and changes nothing but RSP, even when the
buffer is full. -/
def Obligations.InjectOfNothing : Prop :=
  ∀ (c : Nat) (s : State) (x : PrngContext), c < Config.nctx → s.slots[c]? = some x →
    phaseOf x = .accumulating → x.bufferLength ≤ Config.maxBufferSize → s.rspReady = true →
    exec (.inject c 0) s = .next { s with rsp := s.rsp ++ [.ok] }

/-- R73: two INJECTs of `a` and `b` bytes that both complete with OK leave the state that one INJECT of the `a + b` bytes
leaves, but for the one more status: `bufferLength` advances by `a + b` and the `a + b` bytes stand from the old
`bufferLength` on. Where the first fits and the whole does not, the split form appends the first part and fails on the
second, and the single form appends nothing. -/
def Obligations.InjectConcatenation : Prop :=
  ∀ (c a b : Nat) (s : State) (x : PrngContext), c < Config.nctx → s.slots[c]? = some x →
    phaseOf x = .accumulating → Memory.wf x.inputBuffer = true → s.rspReady = true → a + b ≤ s.din.length →
    (x.bufferLength + (a + b) ≤ Config.maxBufferSize →
      ∃ t u y, exec (.inject c (a + b)) s = .next t ∧ exec (.inject c a) s = .next u ∧
        t.rsp = s.rsp ++ [.ok] ∧ t.slots[c]? = some y ∧ y.bufferLength = x.bufferLength + (a + b) ∧
        (∀ i, i < a + b → some (readByte y.inputBuffer (x.bufferLength + i)) = s.din[i]?) ∧
        exec (.inject c b) u = .next { t with rsp := s.rsp ++ [.ok, .ok] }) ∧
    (x.bufferLength + a ≤ Config.maxBufferSize → Config.maxBufferSize < x.bufferLength + (a + b) →
      ∃ u, exec (.inject c a) s = .next u ∧ u.rsp = s.rsp ++ [.ok] ∧
        exec (.inject c b) u = .next { u with din := s.din.drop (a + b), rsp := s.rsp ++ [.ok, .capacityExceeded] } ∧
        exec (.inject c (a + b)) s =
          .next { s with din := s.din.drop (a + b), rsp := s.rsp ++ [.capacityExceeded] })

/-! ### FLIP (spec/42_flip.md) -/

/-- R74, R75, R58: FLIP of an Accumulating slot completes with OK, whatever its LEN, also with nothing absorbed: one hash
request with exactly the absorbed bytes, its digest in `state`, the slot Finalized, counter and cursor 0; buffer,
`bufferLength` and the bytes of the cache stay, and nothing else changes. -/
def Obligations.FlipFinalizes : Prop :=
  ∀ (c n : Nat) (s : State) (x : PrngContext), c < Config.nctx → s.slots[c]? = some x →
    phaseOf x = .accumulating → x.bufferLength ≤ Config.maxBufferSize → s.rspReady = true →
    exec (.flip c n) s = .next
      { s with
        slots := s.slots.set c
          { x with
            state := Config.hash256 (absorbed x)
            finalized := true
            counter := 0
            outputCachePosition := 0
            outputCacheLength := 0 }
        rsp := s.rsp ++ [.ok]
        hashRequests := s.hashRequests ++ [absorbed x] }

/-! ### EXTRACT (spec/43_extract.md) -/

/-- R35, R79 i: the block message is 40 bytes, the 32 bytes of `state` and then the 8 bytes of the counter, most
significant first. -/
def Obligations.BlockMessageBytes : Prop :=
  ∀ (d : Digest) (j : BitVec 64), (blockMessage d j).length = 40 ∧
    (∀ (i : Nat) (h : i < 32), (blockMessage d j)[i]? = some d[i]) ∧
    (∀ k : Nat, k < 8 →
      (blockMessage d j)[32 + k]? = some (BitVec.ofNat 8 ((j.toNat >>> (8 * (7 - k))) &&& 0xff)))

/-- R78, R83: an EXTRACT that the leftover bytes serve delivers the next LEN of them and advances the cursor by LEN; no
block is generated, no hash request is made, nothing else changes. -/
def Obligations.ExtractServesLeftover : Prop :=
  ∀ (c n : Nat) (s : State) (x : PrngContext), c < Config.nctx → s.slots[c]? = some x →
    phaseOf x = .finalized → CursorInRange x → n ≤ leftover x → s.rspReady = true → s.doutReady = true →
    exec (.extract c n) s = .next
      { s with
        slots := s.slots.set c { x with outputCachePosition := x.outputCachePosition + n }
        rsp := s.rsp ++ [.ok]
        dout := s.dout ++ (x.outputCache.toList.drop x.outputCachePosition).take n }

/-- R79, R82, R83: an EXTRACT of more bytes than are left over delivers all leftover bytes and then the first bytes of
`m = ceil((LEN - a) / 32)` new blocks, makes the `m` requests of the successive counters in order, and leaves the slot
as R83 says: the counter `m` further modulo 2^64, the last block in the cache, the cursor at `LEN - a - 32 * (m - 1)`. -/
def Obligations.ExtractGeneratesBlocks : Prop :=
  ∀ (c n : Nat) (s : State) (x : PrngContext), c < Config.nctx → s.slots[c]? = some x →
    phaseOf x = .finalized → CursorInRange x → leftover x < n → s.rspReady = true → s.doutReady = true →
    exec (.extract c n) s = .next
      { s with
        slots := s.slots.set c
          { x with
            counter := x.counter + BitVec.ofNat 64 (blocksFor (n - leftover x))
            outputCacheLength := 32
            outputCache := Config.hash256
              (blockMessage x.state (x.counter + BitVec.ofNat 64 (blocksFor (n - leftover x) - 1)))
            outputCachePosition := n - leftover x - 32 * (blocksFor (n - leftover x) - 1) }
        rsp := s.rsp ++ [.ok]
        dout := s.dout ++ ((x.outputCache.toList.drop x.outputCachePosition).take (leftover x) ++
          (blockBytes Config.params x.state x.counter (blocksFor (n - leftover x))).take (n - leftover x))
        hashRequests := s.hashRequests ++
          blockRequests x.state x.counter (blocksFor (n - leftover x)) }

/-- R81: EXTRACT with `LEN = 0`. On a Finalized slot it completes with OK and changes nothing but RSP, also while the host
takes no output bytes; on any other slot it completes with InvalidState. -/
def Obligations.ExtractOfNothing : Prop :=
  ∀ (c : Nat) (s : State) (x : PrngContext), c < Config.nctx → s.slots[c]? = some x → s.rspReady = true →
    (phaseOf x = .finalized → CursorInRange x →
      exec (.extract c 0) s = .next { s with rsp := s.rsp ++ [.ok] }) ∧
    (phaseOf x ≠ .finalized →
      exec (.extract c 0) s = .next { s with rsp := s.rsp ++ [.invalidState] })

/-- R80: the counter wraps. A block generated at counter `2^64 - 1` completes with OK and leaves the counter 0. -/
def Obligations.CounterWraps : Prop :=
  ∀ (c n : Nat) (s : State) (x : PrngContext), c < Config.nctx → s.slots[c]? = some x →
    phaseOf x = .finalized → CursorInRange x → leftover x < n → n ≤ leftover x + 32 →
    x.counter = BitVec.allOnes 64 → s.rspReady = true → s.doutReady = true →
    ∃ t y, exec (.extract c n) s = .next t ∧ t.rsp = s.rsp ++ [.ok] ∧ t.slots[c]? = some y ∧ y.counter = 0

/-! ### The stream (spec/44_laws_and_properties.md) -/

/-- R96: the position invariant. A FLIP that completes with OK leaves its slot at position 0. An EXTRACT of LEN bytes
from a slot that has delivered `t` bytes since its FLIP delivers exactly `Stream(state)[t .. t + LEN)` and leaves the
slot at position `t + LEN`, past the wrap too. -/
def Obligations.ExtractDeliversTheStream : Prop :=
  (∀ (c n : Nat) (s t : State) (y : PrngContext), exec (.flip c n) s = .next t → t.rsp = s.rsp ++ [.ok] →
    t.slots[c]? = some y → phaseOf y = .finalized ∧ AtPosition Config.params y 0) ∧
  ∀ (c n t : Nat) (s : State) (x : PrngContext), c < Config.nctx → s.slots[c]? = some x →
    phaseOf x = .finalized → AtPosition Config.params x t → s.rspReady = true → s.doutReady = true →
    ∃ y, exec (.extract c n) s = .next
        { s with
          slots := s.slots.set c y
          rsp := s.rsp ++ [.ok]
          dout := s.dout ++ streamSlice Config.params x.state t n
          hashRequests := s.hashRequests ++
            blockRequests x.state (BitVec.ofNat 64 (blocksFor t)) (blocksFor (t + n) - blocksFor t) } ∧
      AtPosition Config.params y (t + n) ∧ y.state = x.state ∧ phaseOf y = .finalized

/-- R97: split-call equivalence. Any sequence of EXTRACTs on a Finalized slot leaves the state, the output bytes and the
hash requests of one EXTRACT of the sum of their lengths; only the number of statuses differs. -/
def Obligations.SplitExtractsEqualOne : Prop :=
  ∀ (c : Nat) (ns : List Nat) (s : State) (x : PrngContext), c < Config.nctx → s.slots[c]? = some x →
    phaseOf x = .finalized → CursorInRange x → s.rspReady = true → s.doutReady = true →
    ∃ t, exec (.extract c ns.sum) s = .next t ∧
      execAll (ns.map (.extract c)) s = .next { t with rsp := s.rsp ++ List.replicate ns.length .ok }

/-- R97, R102: right after FLIP, any sequence of EXTRACTs delivers `Stream(state)[0 .. sum)` and makes the requests with
counters `0 .. ceil(sum / 32) - 1` in order, with no gap and no repeat, and leaves the counter, the cache and the cursor
that the sum alone fixes; where the sum is 0, no block was generated and the cache is as it was. -/
def Obligations.ExtractsAfterFlipDeliverTheStream : Prop :=
  ∀ (c : Nat) (ns : List Nat) (s : State) (x : PrngContext), c < Config.nctx → s.slots[c]? = some x →
    phaseOf x = .finalized → AtPosition Config.params x 0 → s.rspReady = true → s.doutReady = true →
    ∃ t y, execAll (ns.map (.extract c)) s = .next t ∧ t.slots = s.slots.set c y ∧
      t.dout = s.dout ++ streamSlice Config.params x.state 0 ns.sum ∧
      t.rsp = s.rsp ++ List.replicate ns.length .ok ∧
      t.hashRequests = s.hashRequests ++ blockRequests x.state 0 (blocksFor ns.sum) ∧
      y.state = x.state ∧ AtPosition Config.params y ns.sum ∧ (ns.sum = 0 → y.outputCache = x.outputCache)

/-- R99: the prefix property. Of two EXTRACTs of the same slot content, the output of the shorter is a prefix of the
output of the longer. -/
def Obligations.ShorterExtractIsPrefix : Prop :=
  ∀ (c m n : Nat) (s t u : State), m ≤ n → exec (.extract c m) s = .next t → exec (.extract c n) s = .next u →
    ∃ out out', t.dout = s.dout ++ out ∧ u.dout = s.dout ++ out' ∧ out <+: out'

/-- R100: incremental absorption. After any sequence of INJECTs that together fit, FLIP hashes the concatenation of all
payloads after what was absorbed before. -/
def Obligations.FlipHashesTheConcatenation : Prop :=
  ∀ (c n : Nat) (xs : List (List Byte)) (rest : List Byte) (s : State) (x : PrngContext), c < Config.nctx →
    s.slots[c]? = some x → phaseOf x = .accumulating → Memory.wf x.inputBuffer = true →
    x.bufferLength + xs.flatten.length ≤ Config.maxBufferSize → s.din = xs.flatten ++ rest → s.rspReady = true →
    ∃ t y, execAll (xs.map (fun p => .inject c p.length) ++ [.flip c n]) s = .next t ∧
      t.slots = s.slots.set c y ∧ phaseOf y = .finalized ∧
      y.state = Config.hash256 (absorbed x ++ xs.flatten) ∧
      t.hashRequests = s.hashRequests ++ [absorbed x ++ xs.flatten] ∧
      t.din = rest ∧ t.rsp = s.rsp ++ List.replicate (xs.length + 1) .ok

/-! ### Frames and independence -/

/-- R25, R101 b: a command leaves every slot but the one that its CTX names as it was. -/
def Obligations.OtherSlotsUnchanged : Prop :=
  ∀ (i : Instr) (s t : State), exec i s = .next t →
    t.slots.length = s.slots.length ∧ ∀ c, c ≠ i.ctx → t.slots[c]? = s.slots[c]?

/-- R24, R33: the frame of INJECT. In every slot every field but `inputBuffer` and `bufferLength` stays, and so does every
byte of `inputBuffer` but the LEN bytes from `bufferLength` on of the slot that CTX names. -/
def Obligations.InjectFrame : Prop :=
  ∀ (c n c' : Nat) (s t : State) (x : PrngContext), exec (.inject c n) s = .next t → s.slots[c']? = some x →
    Memory.wf x.inputBuffer = true →
    ∃ y, t.slots[c']? = some y ∧ y.initialized = x.initialized ∧ y.finalized = x.finalized ∧ y.state = x.state ∧
      y.counter = x.counter ∧ y.outputCache = x.outputCache ∧
      y.outputCachePosition = x.outputCachePosition ∧ y.outputCacheLength = x.outputCacheLength ∧
      (c' ≠ c → y.bufferLength = x.bufferLength) ∧
      (∀ a, c' ≠ c ∨ a < x.bufferLength ∨ x.bufferLength + n ≤ a →
        readByte y.inputBuffer a = readByte x.inputBuffer a)

/-- R24, R75: the frame of FLIP. In every slot `initialized`, `bufferLength`, the bytes of the cache and every byte of
`inputBuffer` stay. -/
def Obligations.FlipFrame : Prop :=
  ∀ (c n c' : Nat) (s t : State) (x : PrngContext), exec (.flip c n) s = .next t → s.slots[c']? = some x →
    ∃ y, t.slots[c']? = some y ∧ y.initialized = x.initialized ∧ y.bufferLength = x.bufferLength ∧
      y.outputCache = x.outputCache ∧ (∀ a, readByte y.inputBuffer a = readByte x.inputBuffer a)

/-- R24, R83: the frame of EXTRACT. In every slot `initialized`, `finalized`, `state`, `bufferLength` and every byte of
`inputBuffer` stay. -/
def Obligations.ExtractFrame : Prop :=
  ∀ (c n c' : Nat) (s t : State) (x : PrngContext), exec (.extract c n) s = .next t → s.slots[c']? = some x →
    ∃ y, t.slots[c']? = some y ∧ y.initialized = x.initialized ∧ y.finalized = x.finalized ∧ y.state = x.state ∧
      y.bufferLength = x.bufferLength ∧ (∀ a, readByte y.inputBuffer a = readByte x.inputBuffer a)

/-- R16, R19, R94: only FLIP finalizes a slot, only INIT takes it back, and `state` changes in no other command, so that
it is immutable from FLIP to the next INIT. -/
def Obligations.OnlyFlipFinalizesOnlyInitUndoes : Prop :=
  ∀ (i : Instr) (s t : State) (c : Nat) (x y : PrngContext), exec i s = .next t →
    s.slots[c]? = some x → t.slots[c]? = some y →
    (x.finalized = false → y.finalized = true → ∃ n, i = .flip c n ∧ y.state = Config.hash256 (absorbed x)) ∧
    (x.finalized = true → y.finalized = false → ∃ n, i = .init c n) ∧
    (phaseOf x = .finalized → y.state ≠ x.state → ∃ n, i = .init c n)

/-- R98, R101: a command is local to its slot. Two engines whose named slots and payloads are the same, whatever their
other slots, channels and earlier statuses, complete the command with the same status, the same output bytes, the same
hash requests and the same content of that slot. -/
def Obligations.CommandIsLocalToItsSlot : Prop :=
  ∀ (i : Instr) (s s' t : State), s.slots[i.ctx]? = s'.slots[i.ctx]? →
    payloadLen i ≤ s'.din.length → s.din.take (payloadLen i) = s'.din.take (payloadLen i) →
    s'.rspReady = true → s'.doutReady = true → exec i s = .next t →
    ∃ t' e out reqs, exec i s' = .next t' ∧ t.slots[i.ctx]? = t'.slots[i.ctx]? ∧
      t.rsp = s.rsp ++ [e] ∧ t'.rsp = s'.rsp ++ [e] ∧
      t.dout = s.dout ++ out ∧ t'.dout = s'.dout ++ out ∧
      t.hashRequests = s.hashRequests ++ reqs ∧ t'.hashRequests = s'.hashRequests ++ reqs

/-- R31, R98: no unspecified value enters. Two states that differ at most in unspecified fields of Uninitialized slots
take the same step, with the same statuses, output bytes and hash requests, and differ at most so afterwards. So no
claim about a run rests on the values that the model names for the unspecified fields (notes/assumptions/3.md). -/
def Obligations.UnspecifiedFieldsNeverMatter : Prop :=
  ∀ s s' : State, Agree s s' →
    (∃ t t', step s = .next t ∧ step s' = .next t' ∧ Agree t t') ∨
    (∃ f, step s = .fault f ∧ step s' = .fault f)
end

