-- ==== Sys2Proof/Laws/Config.lean ====
section
/-!
SUPPORT. The parameters of the implementation obey the constraints of spec/00_scope.md rules R7 and R9.
-/

namespace Sys2Proof.Config

theorem maxBufferSize_pos : 1 ≤ maxBufferSize := Nat.succ_le_succ (Nat.zero_le _)

theorem maxBufferSize_le : maxBufferSize ≤ 2 ^ 24 - 2 := by
  have h := maxBufferSizeLessOne.isLt
  unfold maxBufferSize
  omega

theorem nctx_pos : 1 ≤ nctx := Nat.succ_le_succ (Nat.zero_le _)

theorem nctx_le : nctx ≤ 64 := by
  have h := nctxLessOne.isLt
  unfold nctx
  omega

theorem params_legal : params.Legal := ⟨maxBufferSize_pos, maxBufferSize_le, nctx_pos, nctx_le⟩

end Sys2Proof.Config
end

