-- ==== Sys2Proof/Laws/State.lean ====
section
/-!
SUPPORT. What each named update of the state does to each field, and the fields of the named contexts; all true by
definition.
-/

namespace Sys2Proof.Machine

@[simp] theorem setSlot_slots (c : Nat) (x : PrngContext) (s : State) : (setSlot c x s).slots = s.slots.set c x := rfl
@[simp] theorem setSlot_cmd (c : Nat) (x : PrngContext) (s : State) : (setSlot c x s).cmd = s.cmd := rfl
@[simp] theorem setSlot_din (c : Nat) (x : PrngContext) (s : State) : (setSlot c x s).din = s.din := rfl
@[simp] theorem setSlot_rsp (c : Nat) (x : PrngContext) (s : State) : (setSlot c x s).rsp = s.rsp := rfl
@[simp] theorem setSlot_dout (c : Nat) (x : PrngContext) (s : State) : (setSlot c x s).dout = s.dout := rfl
@[simp] theorem setSlot_hashRequests (c : Nat) (x : PrngContext) (s : State) : (setSlot c x s).hashRequests = s.hashRequests := rfl
@[simp] theorem setSlot_resetInput (c : Nat) (x : PrngContext) (s : State) : (setSlot c x s).resetInput = s.resetInput := rfl
@[simp] theorem setSlot_rspReady (c : Nat) (x : PrngContext) (s : State) : (setSlot c x s).rspReady = s.rspReady := rfl
@[simp] theorem setSlot_doutReady (c : Nat) (x : PrngContext) (s : State) : (setSlot c x s).doutReady = s.doutReady := rfl
@[simp] theorem setSlot_resets (c : Nat) (x : PrngContext) (s : State) : (setSlot c x s).resets = s.resets := rfl

@[simp] theorem putStatus_slots (e : Status) (s : State) : (putStatus e s).slots = s.slots := rfl
@[simp] theorem putStatus_cmd (e : Status) (s : State) : (putStatus e s).cmd = s.cmd := rfl
@[simp] theorem putStatus_din (e : Status) (s : State) : (putStatus e s).din = s.din := rfl
@[simp] theorem putStatus_rsp (e : Status) (s : State) : (putStatus e s).rsp = s.rsp ++ [e] := rfl
@[simp] theorem putStatus_dout (e : Status) (s : State) : (putStatus e s).dout = s.dout := rfl
@[simp] theorem putStatus_hashRequests (e : Status) (s : State) : (putStatus e s).hashRequests = s.hashRequests := rfl
@[simp] theorem putStatus_resetInput (e : Status) (s : State) : (putStatus e s).resetInput = s.resetInput := rfl
@[simp] theorem putStatus_rspReady (e : Status) (s : State) : (putStatus e s).rspReady = s.rspReady := rfl
@[simp] theorem putStatus_doutReady (e : Status) (s : State) : (putStatus e s).doutReady = s.doutReady := rfl
@[simp] theorem putStatus_resets (e : Status) (s : State) : (putStatus e s).resets = s.resets := rfl

@[simp] theorem putBytes_slots (out : List Byte) (s : State) : (putBytes out s).slots = s.slots := rfl
@[simp] theorem putBytes_cmd (out : List Byte) (s : State) : (putBytes out s).cmd = s.cmd := rfl
@[simp] theorem putBytes_din (out : List Byte) (s : State) : (putBytes out s).din = s.din := rfl
@[simp] theorem putBytes_rsp (out : List Byte) (s : State) : (putBytes out s).rsp = s.rsp := rfl
@[simp] theorem putBytes_dout (out : List Byte) (s : State) : (putBytes out s).dout = s.dout ++ out := rfl
@[simp] theorem putBytes_hashRequests (out : List Byte) (s : State) : (putBytes out s).hashRequests = s.hashRequests := rfl
@[simp] theorem putBytes_resetInput (out : List Byte) (s : State) : (putBytes out s).resetInput = s.resetInput := rfl
@[simp] theorem putBytes_rspReady (out : List Byte) (s : State) : (putBytes out s).rspReady = s.rspReady := rfl
@[simp] theorem putBytes_doutReady (out : List Byte) (s : State) : (putBytes out s).doutReady = s.doutReady := rfl
@[simp] theorem putBytes_resets (out : List Byte) (s : State) : (putBytes out s).resets = s.resets := rfl

@[simp] theorem putRequests_slots (reqs : List (List Byte)) (s : State) : (putRequests reqs s).slots = s.slots := rfl
@[simp] theorem putRequests_cmd (reqs : List (List Byte)) (s : State) : (putRequests reqs s).cmd = s.cmd := rfl
@[simp] theorem putRequests_din (reqs : List (List Byte)) (s : State) : (putRequests reqs s).din = s.din := rfl
@[simp] theorem putRequests_rsp (reqs : List (List Byte)) (s : State) : (putRequests reqs s).rsp = s.rsp := rfl
@[simp] theorem putRequests_dout (reqs : List (List Byte)) (s : State) : (putRequests reqs s).dout = s.dout := rfl
@[simp] theorem putRequests_hashRequests (reqs : List (List Byte)) (s : State) : (putRequests reqs s).hashRequests = s.hashRequests ++ reqs := rfl
@[simp] theorem putRequests_resetInput (reqs : List (List Byte)) (s : State) : (putRequests reqs s).resetInput = s.resetInput := rfl
@[simp] theorem putRequests_rspReady (reqs : List (List Byte)) (s : State) : (putRequests reqs s).rspReady = s.rspReady := rfl
@[simp] theorem putRequests_doutReady (reqs : List (List Byte)) (s : State) : (putRequests reqs s).doutReady = s.doutReady := rfl
@[simp] theorem putRequests_resets (reqs : List (List Byte)) (s : State) : (putRequests reqs s).resets = s.resets := rfl

@[simp] theorem hardwareReset_slots (P : Config.Params) (s : State) : (hardwareReset P s).slots = (List.range s.slots.length).map (unspecifiedContext P s.resets) := rfl
@[simp] theorem hardwareReset_cmd (P : Config.Params) (s : State) : (hardwareReset P s).cmd = [] := rfl
@[simp] theorem hardwareReset_din (P : Config.Params) (s : State) : (hardwareReset P s).din = [] := rfl
@[simp] theorem hardwareReset_rsp (P : Config.Params) (s : State) : (hardwareReset P s).rsp = [] := rfl
@[simp] theorem hardwareReset_dout (P : Config.Params) (s : State) : (hardwareReset P s).dout = [] := rfl
@[simp] theorem hardwareReset_hashRequests (P : Config.Params) (s : State) : (hardwareReset P s).hashRequests = [] := rfl
@[simp] theorem hardwareReset_resetInput (P : Config.Params) (s : State) : (hardwareReset P s).resetInput = false := rfl
@[simp] theorem hardwareReset_rspReady (P : Config.Params) (s : State) : (hardwareReset P s).rspReady = s.rspReady := rfl
@[simp] theorem hardwareReset_doutReady (P : Config.Params) (s : State) : (hardwareReset P s).doutReady = s.doutReady := rfl
@[simp] theorem hardwareReset_resets (P : Config.Params) (s : State) : (hardwareReset P s).resets = s.resets + 1 := rfl

@[simp] theorem hostPut_slots (w : Word) (payload : List Byte) (s : State) : (hostPut w payload s).slots = s.slots := rfl
@[simp] theorem hostPut_cmd (w : Word) (payload : List Byte) (s : State) : (hostPut w payload s).cmd = s.cmd ++ [w] := rfl
@[simp] theorem hostPut_din (w : Word) (payload : List Byte) (s : State) : (hostPut w payload s).din = s.din ++ payload := rfl
@[simp] theorem hostPut_rsp (w : Word) (payload : List Byte) (s : State) : (hostPut w payload s).rsp = s.rsp := rfl
@[simp] theorem hostPut_dout (w : Word) (payload : List Byte) (s : State) : (hostPut w payload s).dout = s.dout := rfl
@[simp] theorem hostPut_hashRequests (w : Word) (payload : List Byte) (s : State) : (hostPut w payload s).hashRequests = s.hashRequests := rfl
@[simp] theorem hostPut_resetInput (w : Word) (payload : List Byte) (s : State) : (hostPut w payload s).resetInput = s.resetInput := rfl
@[simp] theorem hostPut_rspReady (w : Word) (payload : List Byte) (s : State) : (hostPut w payload s).rspReady = s.rspReady := rfl
@[simp] theorem hostPut_doutReady (w : Word) (payload : List Byte) (s : State) : (hostPut w payload s).doutReady = s.doutReady := rfl
@[simp] theorem hostPut_resets (w : Word) (payload : List Byte) (s : State) : (hostPut w payload s).resets = s.resets := rfl

@[simp] theorem freshContext_initialized : freshContext.initialized = true := rfl
@[simp] theorem freshContext_finalized : freshContext.finalized = false := rfl
@[simp] theorem freshContext_inputBuffer : freshContext.inputBuffer = zeroedBuffer := rfl
@[simp] theorem freshContext_bufferLength : freshContext.bufferLength = 0 := rfl
@[simp] theorem freshContext_state : freshContext.state = zeroDigest := rfl
@[simp] theorem freshContext_counter : freshContext.counter = 0 := rfl
@[simp] theorem freshContext_outputCache : freshContext.outputCache = zeroDigest := rfl
@[simp] theorem freshContext_outputCachePosition : freshContext.outputCachePosition = 0 := rfl
@[simp] theorem freshContext_outputCacheLength : freshContext.outputCacheLength = 0 := rfl

@[simp] theorem finalizeContext_initialized (d : Digest) (x : PrngContext) : (finalizeContext d x).initialized = x.initialized := rfl
@[simp] theorem finalizeContext_finalized (d : Digest) (x : PrngContext) : (finalizeContext d x).finalized = true := rfl
@[simp] theorem finalizeContext_inputBuffer (d : Digest) (x : PrngContext) : (finalizeContext d x).inputBuffer = x.inputBuffer := rfl
@[simp] theorem finalizeContext_bufferLength (d : Digest) (x : PrngContext) : (finalizeContext d x).bufferLength = x.bufferLength := rfl
@[simp] theorem finalizeContext_state (d : Digest) (x : PrngContext) : (finalizeContext d x).state = d := rfl
@[simp] theorem finalizeContext_counter (d : Digest) (x : PrngContext) : (finalizeContext d x).counter = 0 := rfl
@[simp] theorem finalizeContext_outputCache (d : Digest) (x : PrngContext) : (finalizeContext d x).outputCache = x.outputCache := rfl
@[simp] theorem finalizeContext_outputCachePosition (d : Digest) (x : PrngContext) : (finalizeContext d x).outputCachePosition = 0 := rfl
@[simp] theorem finalizeContext_outputCacheLength (d : Digest) (x : PrngContext) : (finalizeContext d x).outputCacheLength = 0 := rfl

@[simp] theorem unspecifiedContext_initialized (P : Config.Params) (r c : Nat) :
    (unspecifiedContext P r c).initialized = false := rfl

@[simp] theorem atReset_initialized : PrngContext.atReset.initialized = false := rfl

@[simp] theorem hashCall_fst (P : Config.Params) (M : List Byte) (s : State) : (hashCall P M s).1 = P.hash256 M := rfl

@[simp] theorem hashCall_snd (P : Config.Params) (M : List Byte) (s : State) :
    (hashCall P M s).2 = putRequests [M] s := rfl

@[simp] theorem params_maxBufferSize : Config.params.maxBufferSize = Config.maxBufferSize := rfl

@[simp] theorem params_nctx : Config.params.nctx = Config.nctx := rfl

@[simp] theorem params_hash256 : Config.params.hash256 = Config.hash256 := rfl

end Sys2Proof.Machine
end

