-- ==== Sys2Proof/Laws/Ops.lean ====
section
/-!
SUPPORT. What each shared operation over slots, channels and statuses can do, said once.
-/

namespace Sys2Proof.Machine

/-! ### Completing a command -/

/-- Completing with a status puts that status and nothing else, where the host takes it. -/
theorem respond_eq_next (e : Status) (s t : State) :
    respond e s = .next t ↔ s.rspReady = true ∧ t = putStatus e s := by
  unfold respond
  cases h : s.rspReady
  · simp
  · simp [eq_comm]

theorem respond_of_ready (e : Status) (s : State) (h : s.rspReady = true) : respond e s = .next (putStatus e s) :=
  (respond_eq_next e s _).2 ⟨h, rfl⟩

theorem respond_of_not_ready (e : Status) (s : State) (h : s.rspReady = false) :
    respond e s = .fault .waitingForRsp := by
  simp [respond, h]

/-- The entry of an error puts its status and nothing else, where the host takes it (R110). -/
theorem raise_eq_next (e : Status) (s t : State) :
    raise e s = .next t ↔ s.rspReady = true ∧ t = putStatus e s := respond_eq_next e s t

theorem raise_of_ready (e : Status) (s : State) (h : s.rspReady = true) : raise e s = .next (putStatus e s) :=
  respond_of_ready e s h

theorem complete_eq_next (s t : State) :
    complete s = .next t ↔ s.rspReady = true ∧ t = putStatus .ok s := respond_eq_next .ok s t

theorem complete_of_ready (s : State) (h : s.rspReady = true) : complete s = .next (putStatus .ok s) :=
  respond_of_ready .ok s h

/-- Completing an EXTRACT puts the status OK and the bytes, where the host takes them. -/
theorem completeWithBytes_eq_next (out : List Byte) (s t : State) :
    completeWithBytes out s = .next t ↔
      s.rspReady = true ∧ (s.doutReady = true ∨ out = []) ∧ t = putBytes out (putStatus .ok s) := by
  unfold completeWithBytes
  cases s.rspReady
  · simp
  · cases s.doutReady <;> cases out <;> simp [eq_comm]

theorem completeWithBytes_of_ready (out : List Byte) (s : State) (h1 : s.rspReady = true) (h2 : s.doutReady = true) :
    completeWithBytes out s = .next (putBytes out (putStatus .ok s)) :=
  (completeWithBytes_eq_next out s _).2 ⟨h1, .inl h2, rfl⟩

theorem respond_not_refused (e : Status) (s : State) (r : Refusal) : respond e s ≠ .refused r := by
  unfold respond
  split <;> simp

theorem completeWithBytes_not_refused (out : List Byte) (s : State) (r : Refusal) :
    completeWithBytes out s ≠ .refused r := by
  unfold completeWithBytes
  split
  · split <;> simp
  · simp

/-! ### Operands and tests -/

/-- CTX names a slot only where it is below NCTX (R57, R105). -/
theorem namedSlot_def (P : Config.Params) (s : State) (c : Nat) :
    namedSlot P s c = if c < P.nctx then s.slots[c]? else none := by
  simp [namedSlot, List.getElem?_take]

/-- CTX names a slot exactly where it is below NCTX and the engine holds that slot. -/
theorem namedSlot_eq_some (P : Config.Params) (s : State) (c : Nat) (x : PrngContext) :
    namedSlot P s c = some x ↔ c < P.nctx ∧ s.slots[c]? = some x := by
  rw [namedSlot_def]
  split <;> simp_all

theorem namedSlot_eq_none_of_le (P : Config.Params) (s : State) (c : Nat) (h : P.nctx ≤ c) :
    namedSlot P s c = none := by
  simp [namedSlot_def, Nat.not_lt.mpr h]

/-- In an engine that holds its NCTX slots, CTX names none exactly where `CTX >= NCTX` (R105). -/
theorem namedSlot_eq_none (P : Config.Params) (s : State) (c : Nat) (h : s.slots.length = P.nctx) :
    namedSlot P s c = none ↔ P.nctx ≤ c := by
  rw [namedSlot_def]
  split
  · simp only [List.getElem?_eq_none_iff]; omega
  · simp only [true_iff]; omega

/-- The slot that CTX names depends on the slots alone. -/
theorem namedSlot_congr (P : Config.Params) (s t : State) (c : Nat) (h : s.slots = t.slots) :
    namedSlot P s c = namedSlot P t c := by
  simp [namedSlot, h]

theorem requirePhase_eq_none (want : Phase) (x : PrngContext) :
    requirePhase want x = none ↔ phaseOf x = want := by
  unfold requirePhase
  split <;> simp_all

theorem requirePhase_eq_some (want : Phase) (x : PrngContext) (e : Status) :
    requirePhase want x = some e ↔ phaseOf x ≠ want ∧ e = .invalidState := by
  unfold requirePhase
  split <;> simp_all [eq_comm]

/-- A slot is Uninitialized exactly while `initialized` is 0 (R26). -/
theorem phaseOf_uninitialized (x : PrngContext) : phaseOf x = .uninitialized ↔ x.initialized = false := by
  unfold phaseOf
  rcases x.initialized <;> rcases x.finalized <;> simp [phaseOfFlags]

theorem phaseOf_accumulating (x : PrngContext) :
    phaseOf x = .accumulating ↔ x.initialized = true ∧ x.finalized = false := by
  unfold phaseOf
  rcases x.initialized <;> rcases x.finalized <;> simp [phaseOfFlags]

theorem phaseOf_finalized (x : PrngContext) :
    phaseOf x = .finalized ↔ x.initialized = true ∧ x.finalized = true := by
  unfold phaseOf
  rcases x.initialized <;> rcases x.finalized <;> simp [phaseOfFlags]

@[simp] theorem phaseOf_freshContext : phaseOf freshContext = .accumulating := rfl

/-- INJECT passes its tests exactly on an Accumulating slot with room for the payload (R70). -/
theorem injectError_eq_none (P : Config.Params) (n : Nat) (x : PrngContext) :
    injectError P n x = none ↔ phaseOf x = .accumulating ∧ x.bufferLength + n ≤ P.maxBufferSize := by
  unfold injectError firstError requirePhase requireRoom
  by_cases h : phaseOf x = .accumulating <;> simp [h]

/-- The error of INJECT: InvalidState off the Accumulating phase, else CapacityExceeded (R109). -/
theorem injectError_eq_some (P : Config.Params) (n : Nat) (x : PrngContext) (e : Status) :
    injectError P n x = some e ↔
      (phaseOf x ≠ .accumulating ∧ e = .invalidState) ∨
      (phaseOf x = .accumulating ∧ P.maxBufferSize < x.bufferLength + n ∧ e = .capacityExceeded) := by
  unfold injectError firstError requirePhase requireRoom
  by_cases h : phaseOf x = .accumulating
  · by_cases h2 : x.bufferLength + n > P.maxBufferSize <;> simp [h, h2, eq_comm]
  · simp [h, eq_comm]

/-! ### Taking items from the channels -/

/-- DinTake gives the next bytes of DIN where they are all there (R41). -/
theorem takePayload_eq_some (n : Nat) (s s1 : State) (data : List Byte) :
    takePayload n s = some (data, s1) ↔
      n ≤ s.din.length ∧ data = s.din.take n ∧ s1 = { s with din := s.din.drop n } := by
  unfold takePayload
  split
  · simp only [reduceCtorEq, false_iff]; omega
  · simp only [Option.some.injEq, Prod.mk.injEq]
    constructor
    · rintro ⟨rfl, rfl⟩; exact ⟨by omega, rfl, rfl⟩
    · rintro ⟨_, rfl, rfl⟩; exact ⟨rfl, rfl⟩

theorem takePayload_eq_none (n : Nat) (s : State) : takePayload n s = none ↔ s.din.length < n := by
  unfold takePayload
  split <;> simp_all

theorem fetchCommand_nil (s : State) (h : s.cmd = []) : fetchCommand s = none := by
  simp [fetchCommand, h]

theorem fetchCommand_cons (s : State) (w : Word) (rest : List Word) (h : s.cmd = w :: rest) :
    fetchCommand s = some (decode w, { s with cmd := rest }) := by
  simp [fetchCommand, h]

/-! ### The absorb operation of INJECT -/

/-- The payload is appended where it fits the space, and nothing else of the slot changes (R33, R70). -/
theorem absorb_of_room (P : Config.Params) (data : List Byte) (x : PrngContext)
    (h : x.bufferLength + data.length ≤ P.maxBufferSize) :
    absorb P data x = .ok { x with
      inputBuffer := writeBytes x.inputBuffer x.bufferLength data
      bufferLength := x.bufferLength + data.length } := by
  simp [absorb, ibWrite, h, Except.map]

/-! ### One step -/

/-- Everything a step can do: take a hardware reset, idle, or run the oldest command of CMD. -/
theorem step_eq (s : State) :
    step s =
      if s.resetInput then .next (hardwareReset Config.params s)
      else match s.cmd with
        | [] => .next s
        | w :: rest => exec (decode w) { s with cmd := rest } := by
  unfold step fetchCommand
  split
  · rfl
  · cases s.cmd <;> rfl

end Sys2Proof.Machine
end

