-- ==== Sys2Proof/Laws/Commands.lean ====
section
/-!
SUPPORT. Each command by cases: all the ways it can answer a next state.
-/

namespace Sys2Proof.Machine

/-- Everything a completed INIT can have done (R67). -/
theorem initOn_cases (P : Config.Params) (c n : Nat) (s t : State) (h : initOn P c n s = .next t) :
    s.rspReady = true ∧
    ((namedSlot P s c = none ∧ t = putStatus .invalidArgument s) ∨
     (∃ x, namedSlot P s c = some x ∧ t = putStatus .ok (setSlot c freshContext s))) := by
  unfold initOn at h
  split at h
  · rename_i hn
    obtain ⟨hr, rfl⟩ := (raise_eq_next _ _ _).1 h
    exact ⟨hr, .inl ⟨hn, rfl⟩⟩
  · rename_i x hx
    obtain ⟨hr, rfl⟩ := (complete_eq_next _ _).1 h
    exact ⟨hr, .inr ⟨x, hx, rfl⟩⟩

/-- Everything a completed INJECT can have done (R70). -/
theorem injectOn_cases (P : Config.Params) (c n : Nat) (s t : State) (h : injectOn P c n s = .next t) :
    s.rspReady = true ∧ n ≤ s.din.length ∧
    ((namedSlot P s c = none ∧ t = putStatus .invalidArgument { s with din := s.din.drop n }) ∨
     (∃ x e, namedSlot P s c = some x ∧ injectError P n x = some e ∧
        t = putStatus e { s with din := s.din.drop n }) ∨
     (∃ x, namedSlot P s c = some x ∧ injectError P n x = none ∧
        t = putStatus .ok (setSlot c
          { x with
            inputBuffer := writeBytes x.inputBuffer x.bufferLength (s.din.take n)
            bufferLength := x.bufferLength + n }
          { s with din := s.din.drop n }))) := by
  unfold injectOn at h
  split at h
  · cases h
  · rename_i data s1 hp
    obtain ⟨hn, rfl, rfl⟩ := (takePayload_eq_some _ _ _ _).1 hp
    have hl : (s.din.take n).length = n := by simp [hn]
    have hs := namedSlot_congr P { s with din := s.din.drop n } s c rfl
    split at h
    · rename_i hc
      obtain ⟨hr, rfl⟩ := (raise_eq_next _ _ _).1 h
      exact ⟨hr, hn, .inl ⟨hs ▸ hc, rfl⟩⟩
    · rename_i x hx
      split at h
      · rename_i e he
        obtain ⟨hr, rfl⟩ := (raise_eq_next _ _ _).1 h
        exact ⟨hr, hn, .inr (.inl ⟨x, e, hs ▸ hx, he, rfl⟩)⟩
      · rename_i he
        have hroom := ((injectError_eq_none P n x).1 he).2
        rw [absorb_of_room P _ x (by rw [hl]; exact hroom)] at h
        obtain ⟨hr, rfl⟩ := (complete_eq_next _ _).1 h
        refine ⟨hr, hn, .inr (.inr ⟨x, hs ▸ hx, he, ?_⟩)⟩
        simp only [hl]

/-- Everything a completed FLIP can have done (R74). -/
theorem flipOn_cases (P : Config.Params) (c n : Nat) (s t : State) (h : flipOn P c n s = .next t) :
    s.rspReady = true ∧
    ((namedSlot P s c = none ∧ t = putStatus .invalidArgument s) ∨
     (∃ x, namedSlot P s c = some x ∧ phaseOf x ≠ .accumulating ∧ t = putStatus .invalidState s) ∨
     (∃ x, namedSlot P s c = some x ∧ phaseOf x = .accumulating ∧ x.bufferLength ≤ P.maxBufferSize ∧
        t = putStatus .ok (setSlot c
          (finalizeContext (P.hash256 (readBytes x.inputBuffer 0 x.bufferLength)) x)
          (putRequests [readBytes x.inputBuffer 0 x.bufferLength] s)))) := by
  unfold flipOn at h
  split at h
  · rename_i hc
    obtain ⟨hr, rfl⟩ := (raise_eq_next _ _ _).1 h
    exact ⟨hr, .inl ⟨hc, rfl⟩⟩
  · rename_i x hx
    split at h
    · rename_i e he
      obtain ⟨hph, rfl⟩ := (requirePhase_eq_some _ _ _).1 he
      obtain ⟨hr, rfl⟩ := (raise_eq_next _ _ _).1 h
      exact ⟨hr, .inr (.inl ⟨x, hx, hph, rfl⟩)⟩
    · rename_i he
      have hph := (requirePhase_eq_none _ _).1 he
      split at h
      · cases h
      · rename_i M hM
        unfold ibRead at hM
        split at hM
        · cases hM
          rename_i hb
          obtain ⟨hr, rfl⟩ := (complete_eq_next _ _).1 h
          exact ⟨hr, .inr (.inr ⟨x, hx, hph, by omega, rfl⟩)⟩
        · cases hM

/-- Everything a completed EXTRACT can have done (R77). -/
theorem extractOn_cases (P : Config.Params) (c n : Nat) (s t : State) (h : extractOn P c n s = .next t) :
    s.rspReady = true ∧
    ((namedSlot P s c = none ∧ t = putStatus .invalidArgument s) ∨
     (∃ x, namedSlot P s c = some x ∧ phaseOf x ≠ .finalized ∧ t = putStatus .invalidState s) ∨
     (∃ x r, namedSlot P s c = some x ∧ phaseOf x = .finalized ∧ squeeze P n x = .ok r ∧
        (s.doutReady = true ∨ r.out = []) ∧
        t = putBytes r.out (putStatus .ok (putRequests r.requests (setSlot c r.slot s))))) := by
  unfold extractOn at h
  split at h
  · rename_i hc
    obtain ⟨hr, rfl⟩ := (raise_eq_next _ _ _).1 h
    exact ⟨hr, .inl ⟨hc, rfl⟩⟩
  · rename_i x hx
    split at h
    · rename_i e he
      obtain ⟨hph, rfl⟩ := (requirePhase_eq_some _ _ _).1 he
      obtain ⟨hr, rfl⟩ := (raise_eq_next _ _ _).1 h
      exact ⟨hr, .inr (.inl ⟨x, hx, hph, rfl⟩)⟩
    · rename_i he
      have hph := (requirePhase_eq_none _ _).1 he
      split at h
      · cases h
      · rename_i r hr'
        obtain ⟨hr, hd, rfl⟩ := (completeWithBytes_eq_next _ _ _).1 h
        exact ⟨hr, .inr (.inr ⟨x, r, hx, hph, hr', hd, rfl⟩)⟩

/-! ### The arms of exec -/

theorem exec_init (c n : Nat) (s : State) : exec (.init c n) s = initOn Config.params c n s := rfl

theorem exec_inject (c n : Nat) (s : State) : exec (.inject c n) s = injectOn Config.params c n s := rfl

theorem exec_flip (c n : Nat) (s : State) : exec (.flip c n) s = flipOn Config.params c n s := rfl

theorem exec_extract (c n : Nat) (s : State) : exec (.extract c n) s = extractOn Config.params c n s := rfl

end Sys2Proof.Machine
end

