-- ==== Sys2Proof/Laws/Decode.lean ====
section
/-!
SUPPORT. The fields of a packed word and of a decoded command.
-/

namespace Sys2Proof

@[simp] theorem opField_packWord (op : BitVec 2) (c n : Nat) : opField (packWord op c n) = op := by
  apply BitVec.eq_of_getLsbD_eq
  intro i hi
  simp only [opField, packWord, BitVec.getLsbD_extractLsb', BitVec.getLsbD_append]
  have h1 : ¬ (30 + i < 24) := by omega
  have h2 : ¬ (30 + i - 24 < 6) := by omega
  have h3 : 30 + i - 24 - 6 = i := by omega
  simp [h1, h2, h3, hi]

@[simp] theorem ctxField_packWord (op : BitVec 2) (c n : Nat) : ctxField (packWord op c n) = c % 2 ^ 6 := by
  have h : (packWord op c n).extractLsb' 24 6 = BitVec.ofNat 6 c := by
    apply BitVec.eq_of_getLsbD_eq
    intro i hi
    simp only [packWord, BitVec.getLsbD_extractLsb', BitVec.getLsbD_append]
    have h1 : ¬ (24 + i < 24) := by omega
    have h2 : 24 + i - 24 = i := by omega
    simp [h1, h2, hi]
  rw [ctxField, h, BitVec.toNat_ofNat]

@[simp] theorem lenField_packWord (op : BitVec 2) (c n : Nat) : lenField (packWord op c n) = n % 2 ^ 24 := by
  have h : (packWord op c n).extractLsb' 0 24 = BitVec.ofNat 24 n := by
    apply BitVec.eq_of_getLsbD_eq
    intro i hi
    simp only [packWord, BitVec.getLsbD_extractLsb', BitVec.getLsbD_append]
    have h2 : 0 + i < 24 := by omega
    simp [hi]
  rw [lenField, h, BitVec.toNat_ofNat]

theorem ctxField_lt (w : Word) : ctxField w < 2 ^ 6 := BitVec.isLt _

theorem lenField_lt (w : Word) : lenField w < 2 ^ 24 := BitVec.isLt _

@[simp] theorem ctx_decode (w : Word) : (decode w).ctx = ctxField w := by
  unfold decode
  split <;> rfl

@[simp] theorem len_decode (w : Word) : (decode w).len = lenField w := by
  unfold decode
  split <;> rfl

theorem wellFormed_iff (i : Instr) : i.WellFormed ↔ i.ctx < 2 ^ 6 ∧ i.len < 2 ^ 24 := by
  simp [Instr.WellFormed, Instr.wellFormed]

/-- Decoding a packed word: the operation by OP, CTX and LEN read back (R54, R55). -/
theorem decode_packWord_init (c n : Nat) : decode (packWord 0 c n) = .init (c % 2 ^ 6) (n % 2 ^ 24) := by
  simp [decode]

theorem decode_packWord_inject (c n : Nat) : decode (packWord 1 c n) = .inject (c % 2 ^ 6) (n % 2 ^ 24) := by
  simp [decode]

theorem decode_packWord_flip (c n : Nat) : decode (packWord 2 c n) = .flip (c % 2 ^ 6) (n % 2 ^ 24) := by
  simp [decode]

theorem decode_packWord_extract (c n : Nat) : decode (packWord 3 c n) = .extract (c % 2 ^ 6) (n % 2 ^ 24) := by
  simp [decode]

/-- Packing the fields of a word gives the word back: no bit belongs to none of the fields (R54). -/
theorem packWord_fields (w : Word) : packWord (opField w) (ctxField w) (lenField w) = w := by
  apply BitVec.eq_of_getLsbD_eq
  intro i hi
  simp only [packWord, opField, ctxField, lenField, BitVec.ofNat_toNat, BitVec.setWidth_eq, BitVec.getLsbD_append,
    BitVec.getLsbD_extractLsb']
  by_cases h1 : i < 24
  · simp [h1]
  · by_cases h2 : i - 24 < 6
    · have : 24 + (i - 24) = i := by omega
      simp [h1, h2, this]
    · have h3 : i - 24 - 6 < 2 := by omega
      have : 30 + (i - 24 - 6) = i := by omega
      simp [h1, h2, h3, this]

theorem getLsbD_rowMask : ∀ i, i < 32 → rowMask.getLsbD i = decide (30 ≤ i) := by decide

theorem packWord_and_rowMask (op : BitVec 2) (c n : Nat) : packWord op c n &&& rowMask = packWord op 0 0 := by
  apply BitVec.eq_of_getLsbD_eq
  intro i hi
  rw [BitVec.getLsbD_and, getLsbD_rowMask i hi]
  simp only [packWord, BitVec.getLsbD_append]
  by_cases h1 : i < 24
  · have h2 : ¬ 30 ≤ i := by omega
    simp [h1, h2]
  · by_cases h2 : i - 24 < 6
    · have h3 : ¬ 30 ≤ i := by omega
      simp [h1, h2, h3]
    · have h3 : 30 ≤ i := by omega
      simp [h1, h2, h3]

end Sys2Proof
end

