-- ==== Sys2Proof/Laws/Memory.lean ====
section
/-!
SUPPORT. The storage spaces: a read after a write, every other byte unchanged, and every operation keeps the canonical
form and the bounds of the space.
-/

namespace Sys2Proof.Machine

/-! ### One byte -/

theorem readByte_below (m : Memory) (lo a : Nat) (h : Memory.wfFrom lo m = true) (ha : a < lo) :
    readByte m a = unlistedByte := by
  induction m generalizing lo with
  | nil => rfl
  | cons p rest ih =>
    obtain ⟨b, w⟩ := p
    simp only [Memory.wfFrom, Bool.and_eq_true, decide_eq_true_eq] at h
    have hb : a ≠ b := by omega
    simp only [readByte, if_neg hb]
    exact ih (b + 1) h.2 (by omega)

theorem readByte_writeByte (m : Memory) (lo a b : Nat) (v : Byte) (h : Memory.wfFrom lo m = true) :
    readByte (writeByte m a v) b = if b = a then v else readByte m b := by
  induction m generalizing lo with
  | nil =>
    by_cases hv : v = unlistedByte <;> simp [writeByte, readByte, hv]
  | cons p rest ih =>
    obtain ⟨c, w⟩ := p
    have hw := h
    simp only [Memory.wfFrom, Bool.and_eq_true, decide_eq_true_eq] at h
    simp only [writeByte]
    split
    · rename_i hac
      by_cases hv : v = unlistedByte
      · rw [if_pos hv]
        split
        · rename_i hb
          subst hb
          rw [hv]
          have hne : b ≠ c := by omega
          simp only [readByte, if_neg hne]
          exact readByte_below rest (c + 1) b h.2 (by omega)
        · rfl
      · simp only [if_neg hv, readByte]
    · split
      · rename_i _ hac
        subst hac
        by_cases hv : v = unlistedByte
        · simp only [if_pos hv, readByte]
          split
          · rename_i hb
            subst hb
            rw [hv]
            exact readByte_below rest (b + 1) b h.2 (by omega)
          · rfl
        · simp only [if_neg hv, readByte]
          split <;> simp_all
      · rename_i h1 h2
        simp only [readByte, ih (c + 1) h.2]
        split
        · rename_i hbc
          have hne : b ≠ a := by omega
          rw [if_neg hne]
        · rfl

theorem wfFrom_mono (m : Memory) (lo lo' : Nat) (hle : lo' ≤ lo) (h : Memory.wfFrom lo m = true) :
    Memory.wfFrom lo' m = true := by
  cases m with
  | nil => rfl
  | cons p rest =>
    obtain ⟨a, v⟩ := p
    simp only [Memory.wfFrom, Bool.and_eq_true, decide_eq_true_eq] at h ⊢
    exact ⟨⟨by omega, h.1.2⟩, h.2⟩

theorem writeByte_wfFrom (m : Memory) (lo a : Nat) (v : Byte) (h : Memory.wfFrom lo m = true) (ha : lo ≤ a) :
    Memory.wfFrom lo (writeByte m a v) = true := by
  induction m generalizing lo with
  | nil =>
    by_cases hv : v = unlistedByte
    · simp [writeByte, hv, Memory.wfFrom]
    · simp [writeByte, hv, Memory.wfFrom, ha]
  | cons p rest ih =>
    obtain ⟨c, w⟩ := p
    have hw := h
    simp only [Memory.wfFrom, Bool.and_eq_true, decide_eq_true_eq] at h
    simp only [writeByte]
    split
    · by_cases hv : v = unlistedByte
      · rw [if_pos hv]; exact hw
      · rw [if_neg hv]
        simp only [Memory.wfFrom, Bool.and_eq_true, decide_eq_true_eq, bne_iff_ne, ne_eq]
        exact ⟨⟨ha, hv⟩, ⟨by omega, by simpa using h.1.2⟩, h.2⟩
    · split
      · rename_i _ hac
        subst hac
        by_cases hv : v = unlistedByte
        · rw [if_pos hv]; exact wfFrom_mono rest (a + 1) lo (by omega) h.2
        · rw [if_neg hv]
          simp only [Memory.wfFrom, Bool.and_eq_true, decide_eq_true_eq, bne_iff_ne, ne_eq]
          exact ⟨⟨ha, hv⟩, h.2⟩
      · simp only [Memory.wfFrom, Bool.and_eq_true, decide_eq_true_eq]
        exact ⟨⟨h.1.1, h.1.2⟩, ih (c + 1) h.2 (by omega)⟩

/-- Writing a byte keeps the canonical form. -/
theorem writeByte_wf (m : Memory) (a : Nat) (v : Byte) (h : Memory.wf m = true) :
    Memory.wf (writeByte m a v) = true :=
  writeByte_wfFrom m 0 a v h (Nat.zero_le a)

/-- A written byte reads as written. -/
theorem readByte_writeByte_same (m : Memory) (a : Nat) (v : Byte) (h : Memory.wf m = true) :
    readByte (writeByte m a v) a = v := by
  rw [readByte_writeByte m 0 a a v h, if_pos rfl]

/-- Every other byte reads as before. -/
theorem readByte_writeByte_other (m : Memory) (a b : Nat) (v : Byte) (h : Memory.wf m = true) (hb : b ≠ a) :
    readByte (writeByte m a v) b = readByte m b := by
  rw [readByte_writeByte m 0 a b v h, if_neg hb]

/-- A write lists no address but those listed before and the one written. -/
theorem mem_writeByte (m : Memory) (a : Nat) (v : Byte) (cell : Host.Cell) (h : cell ∈ writeByte m a v) :
    cell ∈ m ∨ cell.1 = a := by
  induction m with
  | nil =>
    simp only [writeByte] at h
    split at h <;> simp_all
  | cons p rest ih =>
    obtain ⟨c, w⟩ := p
    simp only [writeByte] at h
    split at h
    · split at h
      · exact .inl h
      · rcases List.mem_cons.mp h with rfl | h
        · exact .inr rfl
        · exact .inl h
    · split at h
      · split at h
        · exact .inl (List.mem_cons_of_mem _ h)
        · rcases List.mem_cons.mp h with rfl | h
          · exact .inr rfl
          · exact .inl (List.mem_cons_of_mem _ h)
      · rcases List.mem_cons.mp h with rfl | h
        · exact .inl (List.mem_cons_self)
        · rcases ih h with h | h
          · exact .inl (List.mem_cons_of_mem _ h)
          · exact .inr h

/-! ### Sequences of bytes -/

/-- Writing a sequence keeps the canonical form. -/
theorem writeBytes_wf (m : Memory) (a : Nat) (data : List Byte) (h : Memory.wf m = true) :
    Memory.wf (writeBytes m a data) = true := by
  induction data generalizing m a with
  | nil => exact h
  | cons v rest ih => exact ih _ _ (writeByte_wf m a v h)

/-- What a byte reads as after a sequence is written: the byte of the sequence at its place, else as before. -/
theorem readByte_writeBytes (m : Memory) (a b : Nat) (data : List Byte) (h : Memory.wf m = true) :
    readByte (writeBytes m a data) b =
      if a ≤ b ∧ b < a + data.length then data.getD (b - a) unlistedByte else readByte m b := by
  induction data generalizing m a with
  | nil =>
    have hn : ¬ (a ≤ b ∧ b < a + 0) := by omega
    simp only [writeBytes, List.length_nil, if_neg hn]
  | cons v rest ih =>
    simp only [writeBytes, List.length_cons]
    rw [ih _ _ (writeByte_wf m a v h), readByte_writeByte m 0 a b v h]
    by_cases hab : b = a
    · subst hab
      simp
    · by_cases hin : a + 1 ≤ b ∧ b < a + 1 + rest.length
      · have h2 : a ≤ b ∧ b < a + (rest.length + 1) := by omega
        have h3 : b - a = (b - (a + 1)) + 1 := by omega
        rw [if_pos hin, if_pos h2, h3, List.getD_cons_succ]
      · have h2 : ¬ (a ≤ b ∧ b < a + (rest.length + 1)) := by omega
        rw [if_neg hin, if_neg h2, if_neg hab]

/-- Bytes outside the range written read as before. -/
theorem readByte_writeBytes_outside (m : Memory) (a b : Nat) (data : List Byte) (h : Memory.wf m = true)
    (hb : b < a ∨ a + data.length ≤ b) : readByte (writeBytes m a data) b = readByte m b := by
  rw [readByte_writeBytes m a b data h, if_neg (by omega)]

/-- A sequence write lists no address but those listed before and those written. -/
theorem mem_writeBytes (m : Memory) (a : Nat) (data : List Byte) (cell : Host.Cell)
    (h : cell ∈ writeBytes m a data) : cell ∈ m ∨ (a ≤ cell.1 ∧ cell.1 < a + data.length) := by
  induction data generalizing m a with
  | nil => exact .inl h
  | cons v rest ih =>
    simp only [List.length_cons]
    rcases ih _ _ h with h | h
    · rcases mem_writeByte m a v cell h with h | h
      · exact .inl h
      · exact .inr (by omega)
    · exact .inr (by omega)

/-- Two writes in a row are one write of the concatenation. -/
theorem writeBytes_append (m : Memory) (a : Nat) (xs ys : List Byte) :
    writeBytes m a (xs ++ ys) = writeBytes (writeBytes m a xs) (a + xs.length) ys := by
  induction xs generalizing m a with
  | nil => rfl
  | cons v rest ih =>
    simp only [List.cons_append, writeBytes, List.length_cons, ih]
    congr 1
    omega

@[simp] theorem readBytes_length (m : Memory) (a n : Nat) : (readBytes m a n).length = n := by
  simp [readBytes]

@[simp] theorem readBytes_zero (m : Memory) (a : Nat) : readBytes m a 0 = [] := rfl

/-- Two spaces that agree on a range read alike there. -/
theorem readBytes_congr (m m' : Memory) (a n : Nat)
    (h : ∀ b, a ≤ b → b < a + n → readByte m b = readByte m' b) : readBytes m a n = readBytes m' a n := by
  unfold readBytes
  refine List.map_congr_left fun i hi => ?_
  exact h (a + i) (by omega) (by have := List.mem_range.mp hi; omega)

/-- A longer read is the concatenation of two. -/
theorem readBytes_add (m : Memory) (a n k : Nat) :
    readBytes m a (n + k) = readBytes m a n ++ readBytes m (a + n) k := by
  simp [readBytes, List.range_add, Nat.add_assoc]

/-- Reading back what was just written. -/
theorem readBytes_writeBytes_same (m : Memory) (a : Nat) (data : List Byte) (h : Memory.wf m = true) :
    readBytes (writeBytes m a data) a data.length = data := by
  refine List.ext_getElem (by simp) fun i h1 h2 => ?_
  simp only [readBytes, List.getElem_map, List.getElem_range]
  rw [readByte_writeBytes m a (a + i) data h, if_pos (by omega)]
  have : a + i - a = i := by omega
  rw [this, List.getD_eq_getElem _ _ h2]

/-- The bytes below an appended sequence stay, and the sequence follows them (R33). -/
theorem readBytes_append (m : Memory) (n : Nat) (data : List Byte) (h : Memory.wf m = true) :
    readBytes (writeBytes m n data) 0 (n + data.length) = readBytes m 0 n ++ data := by
  rw [readBytes_add, Nat.zero_add, readBytes_writeBytes_same m n data h]
  congr 1
  exact readBytes_congr _ _ 0 n fun b _ hb =>
    readByte_writeBytes_outside m n b data h (.inl (by omega))

/-! ### The bounds of the spaces -/

/-- Everything MemRead of IB can do: it reads within the space, or faults. -/
theorem ibRead_eq_ok (P : Config.Params) (m : Memory) (a n : Nat) (out : List Byte) :
    ibRead P m a n = .ok out ↔ a + n ≤ P.maxBufferSize ∧ out = readBytes m a n := by
  unfold ibRead
  split <;> simp_all [eq_comm]

/-- Everything MemWrite of IB can do: it writes within the space, or faults. -/
theorem ibWrite_eq_ok (P : Config.Params) (m m' : Memory) (a : Nat) (data : List Byte) :
    ibWrite P m a data = .ok m' ↔ a + data.length ≤ P.maxBufferSize ∧ m' = writeBytes m a data := by
  unfold ibWrite
  split <;> simp_all [eq_comm]

/-- Everything MemRead of OC can do: it reads within the space, or faults. -/
theorem ocRead_eq_ok (oc : Digest) (a n : Nat) (out : List Byte) :
    ocRead oc a n = .ok out ↔ a + n ≤ 32 ∧ out = cacheSlice oc a n := by
  unfold ocRead
  split <;> simp_all [eq_comm]

theorem cacheSlice_length (oc : Digest) (a n : Nat) (h : a + n ≤ 32) : (cacheSlice oc a n).length = n := by
  simp only [cacheSlice, List.length_take, List.length_drop, Vector.length_toList, digestBytes]
  omega

@[simp] theorem cacheSlice_zero (oc : Digest) (a : Nat) : cacheSlice oc a 0 = [] := by simp [cacheSlice]

/-- A longer slice of the cache is the concatenation of two. -/
theorem cacheSlice_add (oc : Digest) (a n k : Nat) :
    cacheSlice oc a (n + k) = cacheSlice oc a n ++ cacheSlice oc (a + n) k := by
  simp [cacheSlice, List.take_add, List.drop_drop]

@[simp] theorem zeroedBuffer_wf : Memory.wf zeroedBuffer = true := rfl

@[simp] theorem readByte_zeroedBuffer (a : Nat) : readByte zeroedBuffer a = 0 := rfl

end Sys2Proof.Machine
end

