-- ==== Sys2Proof/Laws/PerInstr.lean ====
section
/-!
SUPPORT. The family EncodeSelectsRow: the word of a command selects the command's own row of the opcode map,
`(w & mask) = match` (spec/30_encoding.md rule R55).
-/

namespace Sys2Proof.Laws.EncodeSelectsRow

/-- The word of `i`, masked, is the match value of the row of `i`. -/
def Statement (i : Instr) : Prop := encode i &&& rowMask = rowMatch i

theorem init (c n : Nat) : Statement (.init c n) := by
  simp only [Statement, encode, opcode, packWord_and_rowMask, rowMatch]
  decide

theorem inject (c n : Nat) : Statement (.inject c n) := by
  simp only [Statement, encode, opcode, packWord_and_rowMask, rowMatch]
  decide

theorem flip (c n : Nat) : Statement (.flip c n) := by
  simp only [Statement, encode, opcode, packWord_and_rowMask, rowMatch]
  decide

theorem extract (c n : Nat) : Statement (.extract c n) := by
  simp only [Statement, encode, opcode, packWord_and_rowMask, rowMatch]
  decide

end Sys2Proof.Laws.EncodeSelectsRow
end

