-- ==== Sys2Proof/Laws/Stream.lean ====
section
/-!
SUPPORT. The block generator in closed form: what one call of it delivers, requests and leaves in the slot.
-/

namespace Sys2Proof.Machine

@[simp] theorem be64_length (n : BitVec 64) : (be64 n).length = 8 := rfl

@[simp] theorem blockMessage_length (s : Digest) (n : BitVec 64) : (blockMessage s n).length = 40 := by
  simp [blockMessage, digestBytes]

@[simp] theorem blocksFor_zero : blocksFor 0 = 0 := rfl

theorem blocksFor_pos (n : Nat) (h : 0 < n) : 0 < blocksFor n := by
  unfold blocksFor; omega

/-- One block, then the blocks of what is left. -/
theorem blocksFor_step (n : Nat) (h : 0 < n) : blocksFor n = blocksFor (n - min n 32) + 1 := by
  unfold blocksFor; omega

theorem counter_add (j : BitVec 64) (i : Nat) :
    j + 1 + BitVec.ofNat 64 i = j + BitVec.ofNat 64 (i + 1) := by
  rw [BitVec.add_assoc]
  congr 1
  apply BitVec.eq_of_toNat_eq
  have h1 : (1 : BitVec 64).toNat = 1 := rfl
  simp only [BitVec.toNat_add, BitVec.toNat_ofNat, h1]
  omega

@[simp] theorem blockRequests_zero (s : Digest) (j : BitVec 64) : blockRequests s j 0 = [] := rfl

theorem blockRequests_succ (s : Digest) (j : BitVec 64) (m : Nat) :
    blockRequests s j (m + 1) = blockMessage s j :: blockRequests s (j + 1) m := by
  simp only [blockRequests, List.range_succ_eq_map, List.map_cons, List.map_map, Function.comp_def, counter_add,
    Nat.succ_eq_add_one, BitVec.add_zero]

@[simp] theorem blockBytes_zero (P : Config.Params) (s : Digest) (j : BitVec 64) : blockBytes P s j 0 = [] := rfl

theorem blockBytes_succ (P : Config.Params) (s : Digest) (j : BitVec 64) (m : Nat) :
    blockBytes P s j (m + 1) = (blockAt P s j).toList ++ blockBytes P s (j + 1) m := by
  simp only [blockBytes, List.range_succ_eq_map, List.flatMap_cons, List.flatMap_map, counter_add,
    Nat.succ_eq_add_one, BitVec.add_zero]

@[simp] theorem blockBytes_length (P : Config.Params) (s : Digest) (j : BitVec 64) (m : Nat) :
    (blockBytes P s j m).length = 32 * m := by
  induction m generalizing j with
  | zero => rfl
  | succ m ih => rw [blockBytes_succ, List.length_append, ih]; simp [digestBytes]; omega

@[simp] theorem blockRequests_length (s : Digest) (j : BitVec 64) (m : Nat) : (blockRequests s j m).length = m := by
  simp [blockRequests]

/-- The drain in closed form (R78): the first bytes of what is left over, the cursor moved past them. -/
theorem drain_eq (need : Nat) (x : PrngContext)
    (h : 0 < leftover x → x.outputCachePosition + min need (leftover x) ≤ 32) :
    drain need x = .ok
      { slot := { x with outputCachePosition := x.outputCachePosition + min need (leftover x) }
        out := cacheSlice x.outputCache x.outputCachePosition (min need (leftover x))
        requests := [] } := by
  unfold drain
  split
  · rename_i hp
    simp [ocRead, digestBytes, h hp, Except.map]
  · have h0 : leftover x = 0 := by omega
    simp [h0]

theorem generateBlocks_none (P : Config.Params) (fuel : Nat) (x : PrngContext) :
    generateBlocks P fuel 0 x = { slot := x, out := [], requests := [] } := by
  cases fuel <;> simp [generateBlocks]

/-- The block generator in closed form (R79, R82, R83): the slot after it, the bytes, the requests. -/
theorem generateBlocks_eq (P : Config.Params) (fuel need : Nat) (x : PrngContext) (hf : need ≤ fuel) (hn : 0 < need) :
    generateBlocks P fuel need x =
      { slot := { x with
          outputCache := blockAt P x.state (x.counter + BitVec.ofNat 64 (blocksFor need - 1))
          outputCacheLength := 32
          outputCachePosition := need - 32 * (blocksFor need - 1)
          counter := x.counter + BitVec.ofNat 64 (blocksFor need) }
        out := (blockBytes P x.state x.counter (blocksFor need)).take need
        requests := blockRequests x.state x.counter (blocksFor need) } := by
  induction fuel generalizing need x with
  | zero => omega
  | succ fuel ih =>
    have h0 : need ≠ 0 := by omega
    simp only [generateBlocks, if_neg h0, generateBlock, digestBytes]
    by_cases hle : need ≤ 32
    · have hb : blocksFor need = 1 := by unfold blocksFor; omega
      have hmin : min need 32 = need := by omega
      simp only [hmin, Nat.sub_self, generateBlocks_none, hb, blockBytes_succ, blockBytes_zero, blockRequests_succ,
        blockRequests_zero, cacheSlice, List.drop_zero, List.append_nil, blockAt]
      simp
    · have hmin : min need 32 = 32 := by omega
      have hstep := blocksFor_step need hn
      rw [hmin] at hstep
      have hpos := blocksFor_pos (need - 32) (by omega)
      rw [hmin, ih (need - 32) _ (by omega) (by omega), hstep]
      simp only [blockBytes_succ, blockRequests_succ, counter_add, Nat.add_sub_cancel]
      have h1 : blocksFor (need - 32) - 1 + 1 = blocksFor (need - 32) := by omega
      have h2 : need - 32 - 32 * (blocksFor (need - 32) - 1) = need - 32 * blocksFor (need - 32) := by omega
      have h3 (d : Digest) : d.toList.length = 32 := by simp
      have h4 (d : Digest) (k : Nat) (hk : 32 ≤ k) : d.toList.take k = d.toList :=
        List.take_of_length_le (by rw [h3]; exact hk)
      simp only [h1, h2, List.take_append, h3, cacheSlice, List.drop_zero, blockAt, List.singleton_append,
        h4 _ 32 (Nat.le_refl 32), h4 _ need (by omega)]

/-- The drain faults exactly where it would read outside OC (R12). -/
theorem drain_error (need : Nat) (x : PrngContext) (h1 : 0 < leftover x)
    (h2 : 32 < x.outputCachePosition + min need (leftover x)) : drain need x = .error .cacheAddress := by
  have h3 : ¬ (x.outputCachePosition + min need (leftover x) ≤ digestBytes) := by
    simp only [digestBytes]; omega
  simp only [drain, if_pos h1, ocRead, if_neg h3, Except.map]

/-- A request that the leftover bytes serve (R78, R83). -/
theorem squeeze_of_le (P : Config.Params) (n : Nat) (x : PrngContext)
    (h : 0 < leftover x → x.outputCachePosition + n ≤ 32) (hn : n ≤ leftover x) :
    squeeze P n x = .ok
      { slot := { x with outputCachePosition := x.outputCachePosition + n }
        out := cacheSlice x.outputCache x.outputCachePosition n
        requests := [] } := by
  have hm : min n (leftover x) = n := by omega
  have hl : (cacheSlice x.outputCache x.outputCachePosition n).length = n := by
    by_cases h0 : 0 < leftover x
    · exact cacheSlice_length _ _ _ (h h0)
    · have : n = 0 := by omega
      subst this
      simp
  unfold squeeze
  rw [drain_eq n x (by rw [hm]; exact h), hm]
  simp only [Except.map, hl, Nat.sub_self, generateBlocks_none, List.append_nil]

/-- A request that needs new blocks (R82, R83): all leftover bytes, then the blocks' bytes. -/
theorem squeeze_of_gt (P : Config.Params) (n : Nat) (x : PrngContext)
    (h : 0 < leftover x → x.outputCachePosition + leftover x ≤ 32) (hn : leftover x < n) :
    squeeze P n x = .ok
      { slot := { x with
          outputCache := blockAt P x.state (x.counter + BitVec.ofNat 64 (blocksFor (n - leftover x) - 1))
          outputCacheLength := 32
          outputCachePosition := n - leftover x - 32 * (blocksFor (n - leftover x) - 1)
          counter := x.counter + BitVec.ofNat 64 (blocksFor (n - leftover x)) }
        out := cacheSlice x.outputCache x.outputCachePosition (leftover x) ++
          (blockBytes P x.state x.counter (blocksFor (n - leftover x))).take (n - leftover x)
        requests := blockRequests x.state x.counter (blocksFor (n - leftover x)) } := by
  have hm : min n (leftover x) = leftover x := by omega
  have hl : (cacheSlice x.outputCache x.outputCachePosition (leftover x)).length = leftover x := by
    by_cases h0 : 0 < leftover x
    · exact cacheSlice_length _ _ _ (h h0)
    · have : leftover x = 0 := by omega
      rw [this]
      simp
  unfold squeeze
  rw [drain_eq n x (by rw [hm]; exact h), hm]
  simp only [Except.map, hl]
  rw [generateBlocks_eq P _ _ _ (Nat.le_refl _) (by omega)]
  simp

/-- A squeeze that does not fault has read within OC. -/
theorem squeeze_ok_bound (P : Config.Params) (n : Nat) (x : PrngContext) (r : Squeezed)
    (h : squeeze P n x = .ok r) (h0 : 0 < leftover x) : x.outputCachePosition + min n (leftover x) ≤ 32 := by
  by_cases hb : x.outputCachePosition + min n (leftover x) ≤ 32
  · exact hb
  · rw [squeeze, drain_error n x h0 (by omega)] at h
    cases h

end Sys2Proof.Machine
end

