-- ==== Sys2Proof/Tests/Slice0.lean ====
section
/-!
SUPPORT. Tests of the model, and for every statement of Certificates/Slice0/Obligations.lean that has hypotheses a
witness: a concrete state and operands that meet them. The expected results of the tests are those of
spec/95_test_vectors.md (each test names its vector) or are written out by hand from the rule named.
-/

open Sys2Proof
open Sys2Proof.Machine

namespace Sys2Proof.Tests

/-! ### WellFormed: one ill-formed term for each check -/

theorem test_wellFormed_refuses_ctx_64 : Instr.wellFormed (.inject 64 0) = false := by decide

theorem test_wellFormed_refuses_len_2_24 : Instr.wellFormed (.extract 0 16777216) = false := by decide

theorem test_wellFormed_accepts_the_largest_fields :
    Instr.wellFormed (.init 63 16777215) = true ∧ Instr.wellFormed (.inject 63 16777215) = true ∧
    Instr.wellFormed (.flip 63 16777215) = true ∧ Instr.wellFormed (.extract 63 16777215) = true := by decide

theorem test_canonical : Instr.isCanonical (.flip 1 0) = true ∧ Instr.isCanonical (.init 0 5) = false := by decide

/-! ### Decode: words written out bit by bit from R54 (`oocccccc llllllll llllllll llllllll`) and R55 -/

theorem test_decode_init : decode 0b00000101000000000000000000000000#32 = .init 5 0 := by decide

theorem test_decode_inject : decode 0b01000000000000000000000000001010#32 = .inject 0 10 := by decide

theorem test_decode_flip : decode 0b10100001000000000000000000000111#32 = .flip 33 7 := by decide

theorem test_decode_extract : decode 0b11111111100000000000000000000001#32 = .extract 63 8388609 := by decide

theorem test_encode_words :
    encode (.init 5 0) = 0b00000101000000000000000000000000#32 ∧
    encode (.inject 0 10) = 0b01000000000000000000000000001010#32 ∧
    encode (.flip 33 7) = 0b10100001000000000000000000000111#32 ∧
    encode (.extract 63 8388609) = 0b11111111100000000000000000000001#32 := by decide

theorem test_decodeTableWord : decodeTableWord 32 0x4000000a = some (.inject 0 10) := by decide

theorem test_decodeTableWord_refuses_longer : decodeTableWord 40 0x4000000a = none := by decide

/-- R36: the word 0x4000000a is the bytes 40 00 00 0a. -/
theorem test_decodeBytes : decodeBytes [0x40, 0x00, 0x00, 0x0a, 0x80] = .ok (.inject 0 10, [0x80]) := by decide

theorem test_decodeBytes_refuses_a_cut_word : decodeBytes [0x40, 0x00, 0x00] = .error .truncatedWord := by decide

/-! ### The assembler (R64, R58) -/

theorem test_assemble_hex :
    assemble "INJECT 3, hex:01aB ; two bytes".toList = .ok (some (.inject 3 2, [0x01, 0xab])) := by decide

theorem test_assemble_refuses_ctx_64 : assemble "flip 64".toList = .error .badContext := by decide

theorem test_disassemble_ignored_length :
    disassemble (.init 0 5) [] = "init 0, 5".toList ∧ disassemble (.init 0 0) [] = "init 0".toList := by decide

/-! ### The fixture of spec/95_test_vectors.md section 2 -/

/-- `s(M)` of the toy hash, before the reduction: `weight` is that of the first byte. -/
def toySum : Nat → List Byte → Nat
  | _, [] => 0
  | weight, b :: rest => weight * b.toNat + toySum (weight + 1) rest

/-- The toy hash `TH`. -/
def toyHash (M : List Byte) : Digest :=
  Vector.ofFn fun i => BitVec.ofNat 8 (0x5a + 13 * M.length + toySum 1 M + 31 * i.val)

/-- `MAX_BUFFER_SIZE = 64`, the given `NCTX`, `Hash256 = TH`. -/
def fixture (nctx : Nat) : Config.Params := { maxBufferSize := 64, nctx := nctx, hash256 := toyHash }

/-- A fixture engine with one slot of the given content and the given bytes on DIN. -/
def engine (x : PrngContext) (payload : List Byte) : State :=
  { State.resetOn (fixture 1) with slots := [x], din := payload }

/-- "test input" in ASCII. -/
def testInput : List Byte := [0x74, 0x65, 0x73, 0x74, 0x20, 0x69, 0x6e, 0x70, 0x75, 0x74]

/-- A slot that has absorbed "test input". -/
def seeded : PrngContext :=
  { freshContext with inputBuffer := writeBytes zeroedBuffer 0 testInput, bufferLength := 10 }

/-- A slot directly after `init 0; inject 0, "test input"; flip 0` ("fresh" in the vectors of EXTRACT). -/
def finalized : PrngContext := finalizeContext (toyHash testInput) seeded

/-- What a test looks at: the statuses, the bytes on DOUT and the bytes left on DIN after a step. -/
def traffic : Answer → Option (List Status × List Byte × Nat)
  | .next t => some (t.rsp, t.dout, t.din.length)
  | .fault _ => none
  | .refused _ => none

/-- What a test looks at: slot 0 after a step. -/
def slotAfter : Answer → Option PrngContext
  | .next t => t.slots[0]?
  | .fault _ => none
  | .refused _ => none

/-- What a test looks at: the hash requests after a step. -/
def requestsAfter : Answer → List (List Byte)
  | .next t => t.hashRequests
  | .fault _ => []
  | .refused _ => []

/-- The worked value of section 2.2. -/
theorem test_toyHash_abc : (toyHash [0x61, 0x62, 0x63]).toList.take 4 = [0xcf, 0xee, 0x0d, 0x2c] := by decide

/-! ### One step of each command -/

/-- V-I5: INIT of a Finalized slot leaves every field zero. -/
theorem test_init_finalized_slot :
    slotAfter (initOn (fixture 1) 0 0 (engine finalized [])) = some
      { initialized := true, finalized := false, inputBuffer := [], bufferLength := 0, state := zeroDigest,
        counter := 0, outputCache := zeroDigest, outputCachePosition := 0, outputCacheLength := 0 } := by decide

/-- V-I2: `init 1` with `NCTX = 1`. -/
theorem test_init_no_such_slot :
    initOn (fixture 1) 1 0 (engine finalized []) =
      .next { engine finalized [] with rsp := [.invalidArgument] } := rfl

/-- V-J1: `inject 0, "test input"`, with one surplus byte on DIN. -/
theorem test_inject_test_input :
    slotAfter (injectOn (fixture 1) 0 10 (engine freshContext (testInput ++ [0xff]))) = some
      { freshContext with
        inputBuffer := [(0, 0x74), (1, 0x65), (2, 0x73), (3, 0x74), (4, 0x20), (5, 0x69), (6, 0x6e), (7, 0x70),
          (8, 0x75), (9, 0x74)]
        bufferLength := 10 } ∧
    traffic (injectOn (fixture 1) 0 10 (engine freshContext (testInput ++ [0xff]))) = some ([.ok], [], 1) := by decide

/-- V-J10: 60 bytes are there, 5 more do not fit; the 5 bytes are taken. -/
theorem test_inject_too_long :
    injectOn (fixture 1) 0 5 (engine { freshContext with bufferLength := 60 } [1, 2, 3, 4, 5, 6]) =
      .next { engine { freshContext with bufferLength := 60 } [6] with rsp := [.capacityExceeded] } := rfl

/-- V-F1: `flip 0` after "test input". -/
theorem test_flip_test_input :
    requestsAfter (flipOn (fixture 1) 0 0 (engine seeded [])) = [testInput] ∧
    (slotAfter (flipOn (fixture 1) 0 0 (engine seeded []))).map (fun y => (y.finalized, y.state.toList)) = some
      (true, [0x80, 0x9f, 0xbe, 0xdd, 0xfc, 0x1b, 0x3a, 0x59, 0x78, 0x97, 0xb6, 0xd5, 0xf4, 0x13, 0x32, 0x51,
        0x70, 0x8f, 0xae, 0xcd, 0xec, 0x0b, 0x2a, 0x49, 0x68, 0x87, 0xa6, 0xc5, 0xe4, 0x03, 0x22, 0x41]) := by decide

/-- V-F3: `flip` when already finalized. -/
theorem test_flip_twice :
    flipOn (fixture 1) 0 0 (engine finalized []) = .next { engine finalized [] with rsp := [.invalidState] } := rfl

/-- V-X12: the counter set by hand to 256; the message tail is 00 00 00 00 00 00 01 00. -/
theorem test_extract_counter_256 :
    traffic (extractOn (fixture 1) 0 4 (engine { finalized with counter := 256 } [])) =
      some ([.ok], [0xe9, 0x08, 0x27, 0x46], 0) ∧
    (requestsAfter (extractOn (fixture 1) 0 4 (engine { finalized with counter := 256 } []))).map (List.drop 32) =
      [[0x00, 0x00, 0x00, 0x00, 0x00, 0x00, 0x01, 0x00]] := by decide

/-- V-X13: 40 bytes from counter 2^64 - 1 on; the counter wraps. -/
theorem test_extract_counter_wraps :
    traffic (extractOn (fixture 1) 0 40 (engine { finalized with counter := 0xffffffffffffffff } [])) = some ([.ok],
      [0x9e, 0xbd, 0xdc, 0xfb, 0x1a, 0x39, 0x58, 0x77, 0x96, 0xb5, 0xd4, 0xf3, 0x12, 0x31, 0x50, 0x6f,
       0x8e, 0xad, 0xcc, 0xeb, 0x0a, 0x29, 0x48, 0x67, 0x86, 0xa5, 0xc4, 0xe3, 0x02, 0x21, 0x40, 0x5f,
       0xc2, 0xe1, 0x00, 0x1f, 0x3e, 0x5d, 0x7c, 0x9b], 0) ∧
    (slotAfter (extractOn (fixture 1) 0 40 (engine { finalized with counter := 0xffffffffffffffff } []))).map
      (fun y => (y.counter, y.outputCachePosition)) = some (1, 8) := by decide

/-! ### The first step after reset, on the open parameters: slot 0 exists whatever NCTX is -/

theorem test_first_step_init :
    step (State.reset.withFetchWord 32 0x00000000) =
      .next (putStatus .ok (setSlot 0 freshContext State.reset)) := rfl

theorem test_first_step_extract :
    step (State.reset.withFetchWord 32 0xc0000020) = .next (putStatus .invalidState State.reset) := rfl

/-! ### Witnesses: concrete states on the open parameters -/

/-- An engine all of whose slots hold `x`, with the given bytes on DIN. -/
def allSlots (x : PrngContext) (payload : List Byte) : State :=
  { State.reset with slots := List.replicate Config.nctx x, din := payload }

/-- A slot with a full buffer. -/
def fullContext : PrngContext := { freshContext with bufferLength := Config.maxBufferSize }

/-- A slot directly after FLIP of the empty input. -/
def doneContext : PrngContext := finalizeContext (Config.hash256 []) freshContext

/-- `doneContext` after block 0 was generated and `p` of its bytes were delivered. -/
def readContext (p : Nat) : PrngContext :=
  { doneContext with
    counter := 1
    outputCache := blockAt Config.params (Config.hash256 []) 0
    outputCachePosition := p
    outputCacheLength := 32 }

theorem slot_zero_exists : 0 < Config.nctx := Config.nctx_pos

theorem allSlots_zero (x : PrngContext) (payload : List Byte) : (allSlots x payload).slots[0]? = some x := rfl

theorem allSlots_ok (x : PrngContext) (payload : List Byte) (h : SlotOk Config.params x) :
    EngineOk Config.params (allSlots x payload) := by
  refine ⟨by simp [allSlots, Config.params], fun y hy => ?_⟩
  simp only [allSlots, List.mem_replicate] at hy
  exact hy.2 ▸ h

theorem freshContext_ok : SlotOk Config.params freshContext :=
  ⟨⟨rfl, by simp [zeroedBuffer]⟩, fun _ => Nat.zero_le _, fun _ => ⟨rfl, rfl, rfl, rfl, rfl⟩, by simp⟩

theorem fullContext_ok : SlotOk Config.params fullContext :=
  ⟨⟨rfl, by simp [fullContext, zeroedBuffer]⟩, fun _ => Nat.le_refl _, fun _ => ⟨rfl, rfl, rfl, rfl, rfl⟩,
    by intro h; cases h⟩

theorem doneContext_ok : SlotOk Config.params doneContext :=
  ⟨⟨rfl, by simp [doneContext, zeroedBuffer]⟩, fun _ => Nat.zero_le _, (by intro h; cases h),
    fun _ => ⟨rfl, .inl ⟨rfl, rfl, rfl⟩⟩⟩

theorem readContext_ok (p : Nat) (h1 : 1 ≤ p) (h2 : p ≤ 32) : SlotOk Config.params (readContext p) :=
  ⟨⟨rfl, by simp [readContext, doneContext, zeroedBuffer]⟩, fun _ => Nat.zero_le _, (by intro h; cases h),
    fun _ => ⟨rfl, .inr ⟨rfl, h1, h2, congrArg (blockAt Config.params _) (by decide : (0 : BitVec 64) = 1 - 1)⟩⟩⟩

/-! Encoding. -/

/-- WordIsTheNumberOfItsFields, DecodeOfEncodeIsTheCommand, ListedBytesDecode: the largest fields. -/
theorem witness_wellFormed : (Instr.extract 63 16777215).WellFormed ∧ (Instr.init 0 0).WellFormed := by decide

/-- ListedBytesDecode: a listing just too short. -/
theorem witness_ListedBytesDecode : ([0x40, 0x00, 0x00] : List Byte).length < 4 := by decide

/-- LongRequestSplits: the first request that needs two commands. -/
theorem witness_LongRequestSplits : splitLengths 16777216 = [16777215, 1] := by decide

/-! Reset and one step. -/

theorem witness_ResetLeavesSlotsUninitialized : PrngContext.atReset ∈ State.reset.slots :=
  List.mem_of_getElem? (i := 0) rfl

theorem witness_HardwareResetStep : (hostReset (allSlots doneContext [1])).resetInput = true := rfl

theorem witness_StepRunsDecodedCommand :
    (hostPut 0x4000000a testInput State.reset).resetInput = false ∧
    (hostPut 0x4000000a testInput State.reset).cmd = 0x4000000a :: [] := ⟨rfl, rfl⟩

theorem witness_IdleEngineStays : State.reset.resetInput = false ∧ State.reset.cmd = [] := ⟨rfl, rfl⟩

theorem witness_PlacedWordRunsNext : 0xffffffff < 2 ^ 32 := by decide

/-- StepKeepsEngineOk and StepOnlyWaitsForTheHost: a command waits for an engine in the middle of its output. -/
theorem witness_StepKeepsEngineOk :
    EngineOk Config.params (hostPut 0xc0000001 [] (allSlots (readContext 31) [])) ∧
    ∃ t, step (hostPut 0xc0000001 [] (allSlots (readContext 31) [])) = .next t :=
  ⟨allSlots_ok _ [] (readContext_ok 31 (by decide) (by decide)), _, rfl⟩

/-! The transition table and the errors. -/

/-- TransitionTable: a cell that is OK at its boundary (exact fill), and one that is an error. -/
theorem witness_TransitionTable :
    EngineOk Config.params (allSlots freshContext (List.replicate Config.maxBufferSize 1)) ∧
    (Instr.inject 0 Config.maxBufferSize).ctx < Config.nctx ∧
    (allSlots freshContext (List.replicate Config.maxBufferSize 1)).slots[0]? = some freshContext ∧
    payloadLen (.inject 0 Config.maxBufferSize) ≤ (List.replicate Config.maxBufferSize (1 : Byte)).length ∧
    tableStatus Config.params (.inject 0 Config.maxBufferSize) freshContext = .ok :=
  ⟨allSlots_ok _ _ freshContext_ok, slot_zero_exists, rfl, by simp [payloadLen], by
    simp [tableStatus, Config.params]⟩

theorem witness_TransitionTable_error :
    EngineOk Config.params (allSlots fullContext [1]) ∧ (allSlots fullContext [1]).slots[0]? = some fullContext ∧
    payloadLen (.inject 0 1) ≤ (allSlots fullContext [1]).din.length ∧
    tableStatus Config.params (.inject 0 1) fullContext ≠ .ok := by
  refine ⟨allSlots_ok _ _ fullContext_ok, rfl, by decide, ?_⟩
  have h : phaseOf fullContext = .accumulating := rfl
  simp only [tableStatus, h]
  simp [fullContext, Config.params]

theorem witness_CtxOutOfRangeIsInvalidArgument :
    Config.nctx ≤ (Instr.inject Config.nctx 1).ctx ∧ (allSlots freshContext [1]).rspReady = true ∧
    payloadLen (.inject Config.nctx 1) ≤ (allSlots freshContext [1]).din.length :=
  ⟨Nat.le_refl _, rfl, by decide⟩

theorem witness_CtxOutOfRangeIsInvalidArgument_in_range :
    (Instr.init 0 0).ctx < Config.nctx ∧ State.reset.slots.length = Config.nctx ∧
    exec (.init 0 0) State.reset = .next (putStatus .ok (setSlot 0 freshContext State.reset)) :=
  ⟨slot_zero_exists, by simp [State.reset, State.resetOn, Config.params], rfl⟩

theorem witness_CtxOutOfRangeIsInvalidArgument_64_slots :
    (fixture 64).nctx = 64 ∧ (State.resetOn (fixture 64)).slots.length = (fixture 64).nctx ∧
    (Instr.extract 63 0).WellFormed := by decide

theorem witness_OutOfPhaseIsInvalidState :
    0 < Config.nctx ∧ (allSlots PrngContext.atReset [1]).slots[0]? = some PrngContext.atReset ∧
    (allSlots PrngContext.atReset [1]).rspReady = true ∧ phaseOf PrngContext.atReset ≠ .accumulating ∧
    phaseOf PrngContext.atReset ≠ .finalized ∧ 1 ≤ (allSlots PrngContext.atReset [1]).din.length :=
  ⟨slot_zero_exists, rfl, rfl, by decide, by decide, by decide⟩

theorem witness_OutOfPhaseIsInvalidState_init :
    exec (.init 0 0) State.reset = .next (putStatus .ok (setSlot 0 freshContext State.reset)) := rfl

theorem witness_OversizedInjectIsCapacityExceeded :
    0 < Config.nctx ∧ (allSlots fullContext [1]).slots[0]? = some fullContext ∧
    phaseOf fullContext = .accumulating ∧ Config.maxBufferSize < fullContext.bufferLength + 1 ∧
    (allSlots fullContext [1]).rspReady = true ∧ 1 ≤ (allSlots fullContext [1]).din.length :=
  ⟨slot_zero_exists, rfl, rfl, Nat.lt_succ_self _, rfl, by decide⟩

/-- OversizedInjectIsCapacityExceeded (the converse), ErrorChangesNothing and FailedCommandFailsAgain: an oversized
INJECT that completes. -/
theorem witness_failed_inject :
    exec (.inject 0 1) (allSlots fullContext [1]) =
      .next { allSlots fullContext [] with rsp := [.capacityExceeded] } := by
  have h : injectError Config.params 1 fullContext = some .capacityExceeded :=
    (injectError_eq_some _ _ _ _).2 (.inr ⟨rfl, Nat.lt_succ_self _, rfl⟩)
  have hs : namedSlot Config.params (allSlots fullContext []) 0 = some fullContext := rfl
  show injectOn Config.params 0 1 (allSlots fullContext [1]) = _
  simp only [injectOn, show takePayload 1 (allSlots fullContext [1]) = some ([1], allSlots fullContext []) from rfl,
    hs, h]
  rfl

/-- FailedCommandFailsAgain: the state in which the failed INJECT is repeated. -/
theorem witness_FailedCommandFailsAgain :
    (allSlots fullContext [2]).slots = (allSlots fullContext []).slots ∧
    (allSlots fullContext [2]).rspReady = true ∧ payloadLen (.inject 0 1) ≤ (allSlots fullContext [2]).din.length :=
  ⟨rfl, rfl, by decide⟩

/-! Channels. -/

/-- StatusCodesOnRsp, CommandTraffic and HashRequestsOfACommand: an EXTRACT that completes with OK. -/
theorem witness_completed_extract :
    ∃ t, exec (.extract 0 1) (allSlots doneContext []) = .next t ∧ t.rsp = [] ++ [.ok] := ⟨_, rfl, rfl⟩

/-- CommandTraffic and HashRequestsOfACommand: an EXTRACT that completes with an error, and a FLIP and an INJECT with OK.
-/
theorem witness_completed_others :
    (∃ t, exec (.extract 0 1) (allSlots freshContext []) = .next t ∧ t.rsp = [] ++ [.invalidState]) ∧
    (∃ t, exec (.flip 0 0) (allSlots freshContext []) = .next t ∧ t.rsp = [] ++ [.ok]) ∧
    (∃ t, exec (.inject 0 0) (allSlots freshContext []) = .next t ∧ t.rsp = [] ++ [.ok]) :=
  ⟨⟨_, rfl, rfl⟩, ⟨_, rfl, rfl⟩, ⟨_, rfl, rfl⟩⟩

theorem witness_EngineWaitsForTheHost_payload : (allSlots freshContext [1]).din.length < 2 := by decide

theorem witness_EngineWaitsForTheHost_status :
    EngineOk Config.params (State.mk (List.replicate Config.nctx freshContext) [] [1] [] [] [] false false true 0) ∧
    payloadLen (.inject 0 1) ≤ ([1] : List Byte).length :=
  ⟨allSlots_ok freshContext [1] freshContext_ok, by decide⟩

theorem witness_EngineWaitsForTheHost_output :
    EngineOk Config.params
      (State.mk (List.replicate Config.nctx (readContext 32)) [] [] [] [] [] false true false 0) ∧
    0 < Config.nctx ∧ phaseOf (readContext 32) = .finalized ∧ 0 < 1 :=
  ⟨allSlots_ok _ [] (readContext_ok 32 (by decide) (by decide)), slot_zero_exists, rfl, by decide⟩

/-! INIT. -/

theorem witness_InitCreatesContext : 0 < Config.nctx ∧ 0 < State.reset.slots.length ∧ State.reset.rspReady = true :=
  ⟨slot_zero_exists, by simp [State.reset, State.resetOn, Config.params, slot_zero_exists], rfl⟩

theorem witness_InitForgetsTheEarlierContent :
    exec (.init 0 0) State.reset = .next (putStatus .ok (setSlot 0 freshContext State.reset)) ∧
    ∃ u, exec (.init 0 7) (putStatus .ok (setSlot 0 freshContext State.reset)) = .next u := ⟨rfl, _, rfl⟩

/-! INJECT. -/

/-- InjectAppendsPayload: exact fill of an empty buffer. -/
theorem witness_InjectAppendsPayload :
    0 < Config.nctx ∧ phaseOf freshContext = .accumulating ∧
    freshContext.bufferLength + Config.maxBufferSize ≤ Config.maxBufferSize ∧
    Memory.wf freshContext.inputBuffer = true ∧
    Config.maxBufferSize ≤ (allSlots freshContext (List.replicate Config.maxBufferSize 1)).din.length :=
  ⟨slot_zero_exists, rfl, by simp, rfl, by simp [allSlots]⟩

/-- InjectOfNothing: a full buffer. -/
theorem witness_InjectOfNothing :
    0 < Config.nctx ∧ (allSlots fullContext []).slots[0]? = some fullContext ∧
    phaseOf fullContext = .accumulating ∧ fullContext.bufferLength ≤ Config.maxBufferSize ∧
    (allSlots fullContext []).rspReady = true := ⟨slot_zero_exists, rfl, rfl, Nat.le_refl _, rfl⟩

/-- InjectConcatenation: both clauses at the boundary, `a = MAX_BUFFER_SIZE` with `b = 0` and with `b = 1`. -/
theorem witness_InjectConcatenation :
    0 < Config.nctx ∧ phaseOf freshContext = .accumulating ∧ Memory.wf freshContext.inputBuffer = true ∧
    Config.maxBufferSize + 1 ≤ (allSlots freshContext (List.replicate (Config.maxBufferSize + 1) 1)).din.length ∧
    freshContext.bufferLength + (Config.maxBufferSize + 0) ≤ Config.maxBufferSize ∧
    freshContext.bufferLength + Config.maxBufferSize ≤ Config.maxBufferSize ∧
    Config.maxBufferSize < freshContext.bufferLength + (Config.maxBufferSize + 1) :=
  ⟨slot_zero_exists, rfl, rfl, by simp [allSlots], by simp, by simp, by simp⟩

/-! FLIP. -/

/-- FlipFinalizes: nothing absorbed, and a full buffer. -/
theorem witness_FlipFinalizes :
    0 < Config.nctx ∧ phaseOf freshContext = .accumulating ∧ freshContext.bufferLength ≤ Config.maxBufferSize ∧
    phaseOf fullContext = .accumulating ∧ fullContext.bufferLength ≤ Config.maxBufferSize ∧
    (allSlots fullContext []).slots[0]? = some fullContext ∧ (allSlots fullContext []).rspReady = true :=
  ⟨slot_zero_exists, rfl, Nat.zero_le _, rfl, Nat.le_refl _, rfl, rfl⟩

/-! EXTRACT. -/

/-- BlockMessageBytes: the last index of each part. -/
theorem witness_BlockMessageBytes : 31 < 32 ∧ 7 < 8 := by decide

/-- ExtractServesLeftover: the one byte that is left over. -/
theorem witness_ExtractServesLeftover :
    0 < Config.nctx ∧ (allSlots (readContext 31) []).slots[0]? = some (readContext 31) ∧
    phaseOf (readContext 31) = .finalized ∧ CursorInRange (readContext 31) ∧ 1 ≤ leftover (readContext 31) ∧
    (allSlots (readContext 31) []).rspReady = true ∧ (allSlots (readContext 31) []).doutReady = true :=
  ⟨slot_zero_exists, rfl, rfl, ⟨by decide, by decide⟩, by decide, rfl, rfl⟩

/-- ExtractGeneratesBlocks: one byte more than is left over. -/
theorem witness_ExtractGeneratesBlocks :
    0 < Config.nctx ∧ (allSlots (readContext 31) []).slots[0]? = some (readContext 31) ∧
    phaseOf (readContext 31) = .finalized ∧ CursorInRange (readContext 31) ∧ leftover (readContext 31) < 2 ∧
    (allSlots (readContext 31) []).rspReady = true ∧ (allSlots (readContext 31) []).doutReady = true :=
  ⟨slot_zero_exists, rfl, rfl, ⟨by decide, by decide⟩, by decide, rfl, rfl⟩

theorem witness_ExtractOfNothing :
    0 < Config.nctx ∧ (phaseOf (readContext 32) = .finalized ∧ CursorInRange (readContext 32)) ∧
    phaseOf freshContext ≠ .finalized ∧ (allSlots freshContext []).rspReady = true :=
  ⟨slot_zero_exists, ⟨rfl, by decide, by decide⟩, by decide, rfl⟩

/-- CounterWraps: the last block before the wrap, whole. -/
theorem witness_CounterWraps :
    0 < Config.nctx ∧ phaseOf { doneContext with counter := BitVec.allOnes 64 } = .finalized ∧
    CursorInRange { doneContext with counter := BitVec.allOnes 64 } ∧
    leftover { doneContext with counter := BitVec.allOnes 64 } < 32 ∧
    32 ≤ leftover { doneContext with counter := BitVec.allOnes 64 } + 32 :=
  ⟨slot_zero_exists, rfl, ⟨by decide, by decide⟩, by decide, by decide⟩

/-! The stream. -/

/-- ExtractDeliversTheStream: positions 0, 1 and 32; a FLIP that completes. -/
theorem witness_ExtractDeliversTheStream :
    0 < Config.nctx ∧ phaseOf doneContext = .finalized ∧ AtPosition Config.params doneContext 0 ∧
    AtPosition Config.params (readContext 1) 1 ∧ AtPosition Config.params (readContext 32) 32 ∧
    (allSlots (readContext 1) []).rspReady = true ∧ (allSlots (readContext 1) []).doutReady = true :=
  ⟨slot_zero_exists, rfl, ⟨rfl, rfl, rfl⟩, ⟨rfl, rfl, rfl, rfl⟩, ⟨rfl, rfl, rfl, rfl⟩, rfl, rfl⟩

theorem witness_ExtractDeliversTheStream_flip :
    ∃ t, exec (.flip 0 0) (allSlots freshContext []) = .next t ∧ t.rsp = [] ++ [.ok] ∧
      t.slots[0]? = some doneContext := ⟨_, rfl, rfl, rfl⟩

/-- SplitExtractsEqualOne: three EXTRACTs of 16 bytes; the cursor may stand anywhere. -/
theorem witness_SplitExtractsEqualOne :
    0 < Config.nctx ∧ (allSlots (readContext 5) []).slots[0]? = some (readContext 5) ∧
    phaseOf (readContext 5) = .finalized ∧ CursorInRange (readContext 5) ∧ [16, 16, 16].sum = 48 ∧
    (allSlots (readContext 5) []).rspReady = true ∧ (allSlots (readContext 5) []).doutReady = true :=
  ⟨slot_zero_exists, rfl, rfl, ⟨by decide, by decide⟩, rfl, rfl, rfl⟩

/-- ExtractsAfterFlipDeliverTheStream, with lengths whose sum is 0 and whose sum is not. -/
theorem witness_ExtractsAfterFlipDeliverTheStream :
    0 < Config.nctx ∧ (allSlots doneContext []).slots[0]? = some doneContext ∧
    phaseOf doneContext = .finalized ∧ AtPosition Config.params doneContext 0 ∧
    (allSlots doneContext []).rspReady = true ∧ (allSlots doneContext []).doutReady = true ∧
    [0, 0].sum = 0 ∧ [5, 40].sum ≠ 0 :=
  ⟨slot_zero_exists, rfl, rfl, ⟨rfl, rfl, rfl⟩, rfl, rfl, rfl, by decide⟩

theorem witness_ShorterExtractIsPrefix :
    1 ≤ 2 ∧ (∃ t, exec (.extract 0 1) (allSlots doneContext []) = .next t) ∧
    ∃ u, exec (.extract 0 2) (allSlots doneContext []) = .next u := ⟨by decide, ⟨_, rfl⟩, ⟨_, rfl⟩⟩

/-- FlipHashesTheConcatenation: two INJECTs, of one byte and of none, and a byte that stays on DIN. -/
theorem witness_FlipHashesTheConcatenation :
    0 < Config.nctx ∧ (allSlots freshContext [0x74, 0xff]).slots[0]? = some freshContext ∧
    phaseOf freshContext = .accumulating ∧ Memory.wf freshContext.inputBuffer = true ∧
    freshContext.bufferLength + ([[0x74], []] : List (List Byte)).flatten.length ≤ Config.maxBufferSize ∧
    (allSlots freshContext [0x74, 0xff]).din = ([[0x74], []] : List (List Byte)).flatten ++ [0xff] ∧
    (allSlots freshContext [0x74, 0xff]).rspReady = true :=
  ⟨slot_zero_exists, rfl, rfl, rfl, Config.maxBufferSize_pos, rfl, rfl⟩

/-! Frames and independence. -/

/-- OtherSlotsUnchanged, FlipFrame, ExtractFrame and OnlyFlipFinalizesOnlyInitUndoes: completed commands on slot 0. -/
theorem witness_frames :
    (∃ t, exec (.flip 0 0) (allSlots freshContext []) = .next t ∧ t.slots[0]? = some doneContext) ∧
    (∃ t, exec (.extract 0 1) (allSlots (readContext 31) []) = .next t) ∧
    (∃ t, exec (.init 0 0) (allSlots doneContext []) = .next t ∧ t.slots[0]? = some freshContext) ∧
    (allSlots freshContext []).slots[0]? = some freshContext ∧ freshContext.finalized = false ∧
    doneContext.finalized = true ∧ 1 ≠ (Instr.flip 0 0).ctx :=
  ⟨⟨_, rfl, rfl⟩, ⟨_, rfl⟩, ⟨_, rfl, rfl⟩, rfl, rfl, rfl, by decide⟩

/-- InjectFrame: a completed INJECT into slot 0. -/
theorem witness_InjectFrame :
    (∃ t, exec (.inject 0 0) (allSlots freshContext []) = .next t) ∧
    (allSlots freshContext []).slots[0]? = some freshContext ∧ Memory.wf freshContext.inputBuffer = true :=
  ⟨⟨_, rfl⟩, rfl, rfl⟩

/-- OnlyFlipFinalizesOnlyInitUndoes, last clause: INIT of a Finalized slot changes its `state`. -/
theorem witness_OnlyFlipFinalizesOnlyInitUndoes :
    (∃ t, exec (.init 0 0) (allSlots { doneContext with state := Vector.replicate 32 1 } []) = .next t ∧
      t.slots[0]? = some freshContext) ∧
    phaseOf { doneContext with state := Vector.replicate 32 1 } = .finalized ∧
    freshContext.state ≠ Vector.replicate 32 1 := ⟨⟨_, rfl, rfl⟩, rfl, by decide⟩

/-- CommandIsLocalToItsSlot: two engines with the same slot 0 and the same payload. -/
theorem witness_CommandIsLocalToItsSlot :
    (allSlots freshContext [1, 2]).slots[(Instr.inject 0 1).ctx]? =
      (setSlot 1 doneContext (allSlots freshContext [1, 3])).slots[(Instr.inject 0 1).ctx]? ∧
    payloadLen (.inject 0 1) ≤ (setSlot 1 doneContext (allSlots freshContext [1, 3])).din.length ∧
    (allSlots freshContext [1, 2]).din.take 1 = (setSlot 1 doneContext (allSlots freshContext [1, 3])).din.take 1 ∧
    ∃ t, exec (.inject 0 1) (allSlots freshContext [1, 2]) = .next t := by
  refine ⟨by simp [Instr.ctx, allSlots], by decide, by decide, ?_⟩
  have h : injectError Config.params 1 freshContext = none :=
    (injectError_eq_none _ _ _).2 ⟨rfl, by simpa using Config.maxBufferSize_pos⟩
  have hs : namedSlot Config.params (allSlots freshContext [2]) 0 = some freshContext := rfl
  have ha := absorb_of_room Config.params [1] freshContext (by simpa using Config.maxBufferSize_pos)
  have ht : takePayload 1 (allSlots freshContext [1, 2]) = some ([1], allSlots freshContext [2]) := rfl
  have he : exec (.inject 0 1) (allSlots freshContext [1, 2]) =
      injectOn Config.params 0 1 (allSlots freshContext [1, 2]) := rfl
  simp only [he, injectOn, ht, hs, h, ha]
  exact ⟨_, rfl⟩

/-- UnspecifiedFieldsNeverMatter: two engines that differ in unspecified fields, a command waiting. -/
theorem witness_UnspecifiedFieldsNeverMatter :
    Agree (hostPut 0x80000000 [] (allSlots PrngContext.atReset []))
      (hostPut 0x80000000 [] (allSlots { doneContext with initialized := false } [])) := by
  refine ⟨by simp [allSlots], fun c x y hx hy => .inl ⟨?_, ?_⟩, rfl, rfl, rfl, rfl, rfl, rfl, rfl, rfl, rfl⟩
  · have h := List.mem_of_getElem? hx
    simp only [hostPut_slots, allSlots, List.mem_replicate] at h
    rw [h.2]; rfl
  · have h := List.mem_of_getElem? hy
    simp only [hostPut_slots, allSlots, List.mem_replicate] at h
    rw [h.2]

end Sys2Proof.Tests
end

section
/-!
PROOFS. The statements about spec/00_scope.md: the ranges of the open parameters (R7, R9).
-/

namespace Sys2Proof.Config

/-- Settles O10, by the four bounds of the open parameters: each is a `Fin` value plus one, so it starts at 1 and
ends at the `Fin`'s size, whatever the value with no body is. -/
theorem parametersInRange : Obligations.ParametersInRange :=
  ⟨maxBufferSize_pos, maxBufferSize_le, nctx_pos, nctx_le⟩

end Sys2Proof.Config
end

section
/-!
PROOFS. What a completed command does to the slots (spec/10_state.md rules R14 to R31): every command by the one slot
that it writes, and from that the frames of the commands and the lifecycle of `finalized` and `state`.
-/

namespace Sys2Proof.Machine

/-- What a completed command with status OK writes to the slot that its CTX names: `x` is the slot's content before it
and `y` after it (R67, R70, R74, R77). -/
inductive SlotWrite : Instr → PrngContext → PrngContext → Prop where
  | init (c n : Nat) (x : PrngContext) : SlotWrite (.init c n) x freshContext
  | inject (c n : Nat) (x : PrngContext) (data : List Byte) (hn : data.length = n) (hx : phaseOf x = .accumulating) :
      SlotWrite (.inject c n) x
        { x with
          inputBuffer := writeBytes x.inputBuffer x.bufferLength data
          bufferLength := x.bufferLength + n }
  | flip (c n : Nat) (x : PrngContext) (hx : phaseOf x = .accumulating) :
      SlotWrite (.flip c n) x (finalizeContext (Config.hash256 (absorbed x)) x)
  | extract (c n : Nat) (x : PrngContext) (r : Squeezed) (hx : phaseOf x = .finalized)
      (hr : squeeze Config.params n x = .ok r) : SlotWrite (.extract c n) x r.slot

/-- Everything a completed command can have done to the slots: nothing, or one write to the slot that CTX names. -/
theorem exec_slots (i : Instr) (s t : State) (h : exec i s = .next t) :
    t.slots = s.slots ∨
    ∃ x y, s.slots[i.ctx]? = some x ∧ SlotWrite i x y ∧ t.slots = s.slots.set i.ctx y := by
  have named (c : Nat) (x : PrngContext) (hx : namedSlot Config.params s c = some x) : s.slots[c]? = some x :=
    ((namedSlot_eq_some _ _ _ _).1 hx).2
  cases i with
  | init c n =>
    obtain ⟨-, ⟨-, rfl⟩ | ⟨x, hx, rfl⟩⟩ := initOn_cases _ c n _ _ h
    · exact .inl rfl
    · exact .inr ⟨x, _, named c x hx, .init c n x, rfl⟩
  | inject c n =>
    obtain ⟨-, hn, ⟨-, rfl⟩ | ⟨x, e, -, -, rfl⟩ | ⟨x, hx, he, rfl⟩⟩ := injectOn_cases _ c n _ _ h
    · exact .inl rfl
    · exact .inl rfl
    · have hphase := ((injectError_eq_none _ _ _).1 he).1
      exact .inr ⟨x, _, named c x hx, .inject c n x (s.din.take n) (by simp [hn]) hphase, rfl⟩
  | flip c n =>
    obtain ⟨-, ⟨-, rfl⟩ | ⟨x, -, -, rfl⟩ | ⟨x, hx, hphase, -, rfl⟩⟩ := flipOn_cases _ c n _ _ h
    · exact .inl rfl
    · exact .inl rfl
    · exact .inr ⟨x, _, named c x hx, .flip c n x hphase, rfl⟩
  | extract c n =>
    obtain ⟨-, ⟨-, rfl⟩ | ⟨x, -, -, rfl⟩ | ⟨x, r, hx, hphase, hr, -, rfl⟩⟩ := extractOn_cases _ c n _ _ h
    · exact .inl rfl
    · exact .inl rfl
    · exact .inr ⟨x, _, named c x hx, .extract c n x r hphase hr, rfl⟩

/-- What a completed command can have done to slot `c`: nothing, or its write where CTX names `c`. -/
theorem exec_slot (i : Instr) (s t : State) (c : Nat) (x : PrngContext) (h : exec i s = .next t)
    (hx : s.slots[c]? = some x) : ∃ y, t.slots[c]? = some y ∧ (y = x ∨ c = i.ctx ∧ SlotWrite i x y) := by
  obtain hs | ⟨x', y, hx', hw, hs⟩ := exec_slots i s t h
  · exact ⟨x, hs ▸ hx, .inl rfl⟩
  · by_cases hc : c = i.ctx
    · subst hc
      obtain rfl : x' = x := Option.some.inj (hx'.symm.trans hx)
      exact ⟨y, by rw [hs, List.getElem?_set_self (List.getElem?_eq_some_iff.1 hx).1], .inr ⟨rfl, hw⟩⟩
    · exact ⟨x, by rw [hs, List.getElem?_set_ne (Ne.symm hc), hx], .inl rfl⟩

/-- The frame of the squeeze (R83): it writes the counter and the three fields of the cache, and no other field. -/
theorem squeeze_slot (P : Config.Params) (n : Nat) (x : PrngContext) (r : Squeezed) (h : squeeze P n x = .ok r) :
    r.slot = { x with
      counter := r.slot.counter
      outputCache := r.slot.outputCache
      outputCachePosition := r.slot.outputCachePosition
      outputCacheLength := r.slot.outputCacheLength } := by
  have hb := squeeze_ok_bound P n x r h
  by_cases hn : n ≤ leftover x
  · rw [squeeze_of_le P n x (by rwa [min_eq_left hn] at hb) hn] at h
    cases h
    rfl
  · have hgt : leftover x < n := by omega
    rw [squeeze_of_gt P n x (by rwa [min_eq_right hgt.le] at hb) hgt] at h
    cases h
    rfl

/-! ### The frames -/

/-- Settles O45: the only write of a command goes to the slot that CTX names. -/
theorem otherSlotsUnchanged : Obligations.OtherSlotsUnchanged := by
  intro i s t h
  obtain hs | ⟨-, y, -, -, hs⟩ := exec_slots i s t h
  · exact ⟨by rw [hs], fun c _ => by rw [hs]⟩
  · exact ⟨by rw [hs, List.length_set], fun c hc => by rw [hs, List.getElem?_set_ne (Ne.symm hc)]⟩

/-- Settles O46: INJECT writes `inputBuffer` and `bufferLength` of its slot, and of `inputBuffer` only the LEN bytes
where the payload goes. -/
theorem injectFrame : Obligations.InjectFrame := by
  intro c n c' s t x h hx hwf
  obtain ⟨y, hy, rfl | ⟨hc, hw⟩⟩ := exec_slot _ s t c' x h hx
  · exact ⟨y, hy, rfl, rfl, rfl, rfl, rfl, rfl, rfl, fun _ => rfl, fun _ _ => rfl⟩
  · cases hw with
    | inject _ _ _ data hn _ =>
      refine ⟨_, hy, rfl, rfl, rfl, rfl, rfl, rfl, rfl, fun hne => absurd hc hne, fun a ha => ?_⟩
      have hout : a < x.bufferLength ∨ x.bufferLength + data.length ≤ a := hn ▸ ha.resolve_left (absurd hc)
      exact readByte_writeBytes_outside _ _ _ _ hwf hout

/-- Settles O47: FLIP writes its slot by `finalizeContext`, which sets none of the fields in question. -/
theorem flipFrame : Obligations.FlipFrame := by
  intro c n c' s t x h hx
  obtain ⟨y, hy, rfl | ⟨-, hw⟩⟩ := exec_slot _ s t c' x h hx
  · exact ⟨y, hy, rfl, rfl, rfl, fun _ => rfl⟩
  · cases hw with
    | flip => exact ⟨_, hy, rfl, rfl, rfl, fun _ => rfl⟩

/-- Settles O48: EXTRACT writes its slot by the squeeze, whose frame is `squeeze_slot`. -/
theorem extractFrame : Obligations.ExtractFrame := by
  intro c n c' s t x h hx
  obtain ⟨y, hy, rfl | ⟨-, hw⟩⟩ := exec_slot _ s t c' x h hx
  · exact ⟨y, hy, rfl, rfl, rfl, rfl, fun _ => rfl⟩
  · cases hw with
    | extract _ _ _ r _ hr =>
      rw [squeeze_slot _ n x r hr] at hy
      exact ⟨_, hy, rfl, rfl, rfl, rfl, fun _ => rfl⟩

/-! ### The lifecycle of `finalized` and `state` -/

/-- Only FLIP writes a set `finalized` over a clear one, and with it the hash of the absorbed bytes (R16, R74). -/
theorem slotWrite_sets_finalized (i : Instr) (x y : PrngContext) (hw : SlotWrite i x y) (hx : x.finalized = false)
    (hy : y.finalized = true) : ∃ n, i = .flip i.ctx n ∧ y.state = Config.hash256 (absorbed x) := by
  cases hw with
  | init => cases hy
  | inject => cases hx.symm.trans hy
  | flip c n => exact ⟨n, rfl, rfl⟩
  | extract _ _ _ _ hphase => cases hx.symm.trans ((phaseOf_finalized x).1 hphase).2

/-- Only INIT writes a clear `finalized` over a set one (R16). -/
theorem slotWrite_clears_finalized (i : Instr) (x y : PrngContext) (hw : SlotWrite i x y) (hx : x.finalized = true)
    (hy : y.finalized = false) : ∃ n, i = .init i.ctx n := by
  cases hw with
  | init c n => exact ⟨n, rfl⟩
  | inject => cases hx.symm.trans hy
  | flip => cases hy
  | extract _ n _ r _ hr =>
    rw [squeeze_slot _ n x r hr] at hy
    cases hx.symm.trans hy

/-- Only INIT writes another `state` into a Finalized slot (R19, R94). -/
theorem slotWrite_state_of_finalized (i : Instr) (x y : PrngContext) (hw : SlotWrite i x y)
    (hx : phaseOf x = .finalized) (hy : y.state ≠ x.state) : ∃ n, i = .init i.ctx n := by
  cases hw with
  | init c n => exact ⟨n, rfl⟩
  | inject _ _ _ _ _ hphase => cases hphase.symm.trans hx
  | flip _ _ _ hphase => cases hphase.symm.trans hx
  | extract _ n _ r _ hr =>
    rw [squeeze_slot _ n x r hr] at hy
    exact absurd rfl hy

/-- Settles O49, by what the command can have written to the slot; a slot it has not written changes in neither
field. -/
theorem onlyFlipFinalizesOnlyInitUndoes : Obligations.OnlyFlipFinalizesOnlyInitUndoes := by
  intro i s t c x y h hx hy
  obtain ⟨y', hy', hxy⟩ := exec_slot i s t c x h hx
  obtain rfl : y' = y := Option.some.inj (hy'.symm.trans hy)
  obtain rfl | ⟨rfl, hw⟩ := hxy
  · refine ⟨fun hf ht => ?_, fun ht hf => ?_, fun _ hne => absurd rfl hne⟩ <;> cases hf.symm.trans ht
  · exact ⟨slotWrite_sets_finalized i x y' hw, slotWrite_clears_finalized i x y' hw,
      slotWrite_state_of_finalized i x y' hw⟩

/-! ### Reset -/

/-- Settles O11: the reset state is written out by `State.resetOn`, and each of its NCTX slots is `atReset`. -/
theorem resetLeavesSlotsUninitialized : Obligations.ResetLeavesSlotsUninitialized := by
  have hslots (x : PrngContext) (hx : x ∈ State.reset.slots) : x = PrngContext.atReset := List.eq_of_mem_replicate hx
  refine ⟨List.length_replicate, fun x hx => ?_, rfl, rfl, rfl, rfl, rfl⟩
  rw [hslots x hx]
  exact ⟨rfl, rfl⟩

end Sys2Proof.Machine
end

section
/-!
PROOFS. No unspecified value enters (spec/10_state.md rule R31): engines that agree on everything the spec gives a value
give agreeing answers, operation by operation, command by command, and so step by step.
-/

namespace Sys2Proof.Machine

/-- Two answers that the unspecified fields cannot tell apart: agreeing next states, or the same fault. -/
def AgreeAnswer (a b : Answer) : Prop :=
  (∃ t t', a = .next t ∧ b = .next t' ∧ Agree t t') ∨ (∃ f, a = .fault f ∧ b = .fault f)

theorem agreeAnswer_next (t t' : State) (h : Agree t t') : AgreeAnswer (.next t) (.next t') :=
  .inl ⟨t, t', rfl, rfl, h⟩

theorem agreeAnswer_fault (f : Fault) : AgreeAnswer (.fault f) (.fault f) := .inr ⟨f, rfl, rfl⟩

theorem agree_refl (s : State) : Agree s s :=
  ⟨rfl, fun _ _ _ hx hy => .inr (Option.some.inj (hx.symm.trans hy)), rfl, rfl, rfl, rfl, rfl, rfl, rfl, rfl, rfl⟩

/-! ### The operations keep the agreement -/

section Operations

variable {s s' : State}

/-- Writing the same content to the same slot. -/
theorem agree_setSlot (c : Nat) (z : PrngContext) (h : Agree s s') : Agree (setSlot c z s) (setSlot c z s') := by
  obtain ⟨hlen, hslot, hrest⟩ := h
  refine ⟨by simp [hlen], fun k x y hx hy => ?_, hrest⟩
  by_cases hk : c = k
  · simp only [setSlot_slots, hk, List.getElem?_set, if_true] at hx hy
    split at hx
    · cases hx
      split at hy
      · cases hy
        exact .inr rfl
      · cases hy
    · cases hx
  · rw [setSlot_slots, List.getElem?_set_ne hk] at hx hy
    exact hslot k x y hx hy

theorem agree_putStatus (e : Status) (h : Agree s s') : Agree (putStatus e s) (putStatus e s') := by
  obtain ⟨hlen, hslot, hcmd, hdin, hrsp, hrest⟩ := h
  exact ⟨hlen, hslot, hcmd, hdin, congrArg (· ++ [e]) hrsp, hrest⟩

theorem agree_putBytes (out : List Byte) (h : Agree s s') : Agree (putBytes out s) (putBytes out s') := by
  obtain ⟨hlen, hslot, hcmd, hdin, hrsp, hdout, hrest⟩ := h
  exact ⟨hlen, hslot, hcmd, hdin, hrsp, congrArg (· ++ out) hdout, hrest⟩

theorem agree_putRequests (reqs : List (List Byte)) (h : Agree s s') :
    Agree (putRequests reqs s) (putRequests reqs s') := by
  obtain ⟨hlen, hslot, hcmd, hdin, hrsp, hdout, hreqs, hrest⟩ := h
  exact ⟨hlen, hslot, hcmd, hdin, hrsp, hdout, congrArg (· ++ reqs) hreqs, hrest⟩

/-- The payload of an INJECT: both engines wait for it, or both take the same bytes. -/
theorem agree_takePayload (n : Nat) (h : Agree s s') :
    (takePayload n s = none ∧ takePayload n s' = none) ∨
    ∃ data u u', takePayload n s = some (data, u) ∧ takePayload n s' = some (data, u') ∧ Agree u u' := by
  obtain ⟨hlen, hslot, hcmd, hdin, hrest⟩ := h
  by_cases hn : s.din.length < n
  · exact .inl ⟨(takePayload_eq_none n s).2 hn, (takePayload_eq_none n s').2 (hdin ▸ hn)⟩
  · have hle : n ≤ s.din.length := by omega
    exact .inr ⟨_, _, _, (takePayload_eq_some n s _ _).2 ⟨hle, rfl, rfl⟩,
      (takePayload_eq_some n s' _ _).2 ⟨hdin ▸ hle, by rw [hdin], rfl⟩,
      hlen, hslot, hcmd, congrArg (List.drop n) hdin, hrest⟩

theorem agree_respond (e : Status) (h : Agree s s') : AgreeAnswer (respond e s) (respond e s') := by
  have hready : s.rspReady = s'.rspReady := by
    obtain ⟨-, -, -, -, -, -, -, -, hready, -, -⟩ := h
    exact hready
  cases hr : s.rspReady with
  | false =>
    rw [respond_of_not_ready e s hr, respond_of_not_ready e s' (hready ▸ hr)]
    exact agreeAnswer_fault _
  | true =>
    rw [respond_of_ready e s hr, respond_of_ready e s' (hready ▸ hr)]
    exact agreeAnswer_next _ _ (agree_putStatus e h)

theorem agree_completeWithBytes (out : List Byte) (h : Agree s s') :
    AgreeAnswer (completeWithBytes out s) (completeWithBytes out s') := by
  have hready : s.rspReady = s'.rspReady ∧ s.doutReady = s'.doutReady := by
    obtain ⟨-, -, -, -, -, -, -, -, hrsp, hdout, -⟩ := h
    exact ⟨hrsp, hdout⟩
  unfold completeWithBytes
  rw [← hready.1, ← hready.2]
  split
  · split
    · exact agreeAnswer_next _ _ (agree_putBytes out (agree_putStatus .ok h))
    · exact agreeAnswer_fault _
  · exact agreeAnswer_fault _

/-- The slot that CTX names: none in both engines, an Uninitialized one in both, or the same content in both. -/
theorem agree_namedSlot (P : Config.Params) (c : Nat) (h : Agree s s') :
    (namedSlot P s c = none ∧ namedSlot P s' c = none) ∨
    (∃ x y, namedSlot P s c = some x ∧ namedSlot P s' c = some y ∧
      phaseOf x = .uninitialized ∧ phaseOf y = .uninitialized) ∨
    (∃ x, namedSlot P s c = some x ∧ namedSlot P s' c = some x) := by
  obtain ⟨hlen, hslot, -⟩ := h
  by_cases hin : c < P.nctx ∧ c < s.slots.length
  · obtain ⟨hc, hcs⟩ := hin
    have hx : namedSlot P s c = some s.slots[c] := (namedSlot_eq_some P s c _).2 ⟨hc, List.getElem?_eq_getElem hcs⟩
    have hy : namedSlot P s' c = some s'.slots[c] :=
      (namedSlot_eq_some P s' c _).2 ⟨hc, List.getElem?_eq_getElem (hlen ▸ hcs)⟩
    obtain ⟨hu, hv⟩ | heq := hslot c _ _ ((namedSlot_eq_some P s c _).1 hx).2 ((namedSlot_eq_some P s' c _).1 hy).2
    · exact .inr (.inl ⟨_, _, hx, hy, (phaseOf_uninitialized _).2 hu, (phaseOf_uninitialized _).2 hv⟩)
    · exact .inr (.inr ⟨_, hx, heq ▸ hy⟩)
  · have none_of_len (u : State) (hu : u.slots.length = s.slots.length) : namedSlot P u c = none := by
      rw [namedSlot_def]
      split
      · exact List.getElem?_eq_none (by omega)
      · rfl
    exact .inl ⟨none_of_len s rfl, none_of_len s' hlen.symm⟩

/-! ### The commands keep the agreement -/

/-- An Uninitialized slot fails the phase test of every command that has one, whatever its other fields hold (R106). -/
theorem requirePhase_of_uninitialized (want : Phase) (x : PrngContext) (hw : want ≠ .uninitialized)
    (hx : phaseOf x = .uninitialized) : requirePhase want x = some .invalidState :=
  (requirePhase_eq_some want x _).2 ⟨fun h => hw (h.symm.trans hx), rfl⟩

theorem injectError_of_uninitialized (P : Config.Params) (n : Nat) (x : PrngContext)
    (hx : phaseOf x = .uninitialized) : injectError P n x = some .invalidState :=
  (injectError_eq_some P n x _).2 (.inl ⟨by simp [hx], rfl⟩)

theorem agree_initOn (P : Config.Params) (c n : Nat) (h : Agree s s') :
    AgreeAnswer (initOn P c n s) (initOn P c n s') := by
  have fresh := agree_respond .ok (agree_setSlot c freshContext h)
  unfold initOn
  obtain ⟨hx, hy⟩ | ⟨x, y, hx, hy, -⟩ | ⟨x, hx, hy⟩ := agree_namedSlot P c h <;> rw [hx, hy]
  · exact agree_respond _ h
  · exact fresh
  · exact fresh

theorem agree_injectOn (P : Config.Params) (c n : Nat) (h : Agree s s') :
    AgreeAnswer (injectOn P c n s) (injectOn P c n s') := by
  unfold injectOn
  obtain ⟨hp, hp'⟩ | ⟨data, u, u', hp, hp', hu⟩ := agree_takePayload n h <;> simp only [hp, hp']
  · exact agreeAnswer_fault _
  · obtain ⟨hx, hy⟩ | ⟨x, y, hx, hy, hux, huy⟩ | ⟨x, hx, hy⟩ := agree_namedSlot P c hu <;> simp only [hx, hy]
    · exact agree_respond _ hu
    · simp only [injectError_of_uninitialized P n _ hux, injectError_of_uninitialized P n _ huy]
      exact agree_respond _ hu
    · cases injectError P n x with
      | some e => exact agree_respond e hu
      | none =>
        cases absorb P data x with
        | error f => exact agreeAnswer_fault f
        | ok z => exact agree_respond .ok (agree_setSlot c z hu)

theorem agree_flipOn (P : Config.Params) (c n : Nat) (h : Agree s s') :
    AgreeAnswer (flipOn P c n s) (flipOn P c n s') := by
  unfold flipOn
  obtain ⟨hx, hy⟩ | ⟨x, y, hx, hy, hux, huy⟩ | ⟨x, hx, hy⟩ := agree_namedSlot P c h <;> simp only [hx, hy]
  · exact agree_respond _ h
  · simp only [requirePhase_of_uninitialized .accumulating _ nofun hux,
      requirePhase_of_uninitialized .accumulating _ nofun huy]
    exact agree_respond _ h
  · cases requirePhase .accumulating x with
    | some e => exact agree_respond e h
    | none =>
      cases ibRead P x.inputBuffer 0 x.bufferLength with
      | error f => exact agreeAnswer_fault f
      | ok M => exact agree_respond .ok (agree_setSlot c _ (agree_putRequests [M] h))

theorem agree_extractOn (P : Config.Params) (c n : Nat) (h : Agree s s') :
    AgreeAnswer (extractOn P c n s) (extractOn P c n s') := by
  unfold extractOn
  obtain ⟨hx, hy⟩ | ⟨x, y, hx, hy, hux, huy⟩ | ⟨x, hx, hy⟩ := agree_namedSlot P c h <;> simp only [hx, hy]
  · exact agree_respond _ h
  · simp only [requirePhase_of_uninitialized .finalized _ nofun hux,
      requirePhase_of_uninitialized .finalized _ nofun huy]
    exact agree_respond _ h
  · cases requirePhase .finalized x with
    | some e => exact agree_respond e h
    | none =>
      cases squeeze P n x with
      | error f => exact agreeAnswer_fault f
      | ok r => exact agree_completeWithBytes r.out (agree_putRequests r.requests (agree_setSlot c r.slot h))

theorem agree_exec (i : Instr) (h : Agree s s') : AgreeAnswer (exec i s) (exec i s') := by
  cases i with
  | init c n => exact agree_initOn Config.params c n h
  | inject c n => exact agree_injectOn Config.params c n h
  | flip c n => exact agree_flipOn Config.params c n h
  | extract c n => exact agree_extractOn Config.params c n h

/-! ### One step -/

/-- Hardware reset forgets the slots but for their number, so agreeing engines are the same engine after it (R120). -/
theorem hardwareReset_of_agree (P : Config.Params) (h : Agree s s') : hardwareReset P s = hardwareReset P s' := by
  obtain ⟨hlen, -, -, -, -, -, -, -, hrsp, hdout, hresets⟩ := h
  simp only [hardwareReset, hlen, hrsp, hdout, hresets]

theorem agree_step (h : Agree s s') : AgreeAnswer (step s) (step s') := by
  have hreset := hardwareReset_of_agree Config.params h
  obtain ⟨hlen, hslot, hcmd, hdin, hrsp, hdout, hreqs, hinput, hrest⟩ := id h
  rw [step_eq, step_eq, ← hinput, ← hcmd, ← hreset]
  split
  · exact agreeAnswer_next _ _ (agree_refl _)
  · cases s.cmd with
    | nil => exact agreeAnswer_next _ _ h
    | cons w rest => exact agree_exec _ ⟨hlen, hslot, rfl, hdin, hrsp, hdout, hreqs, rfl, hrest⟩

end Operations

/-- Settles O51: a hardware reset forgets the unspecified fields, the idle engine keeps them, and no command reads
them, since the phase test of an Uninitialized slot fails before any other field is looked at. -/
theorem unspecifiedFieldsNeverMatter : Obligations.UnspecifiedFieldsNeverMatter := fun _ _ h => agree_step h

end Sys2Proof.Machine
end

section
/-!
PROOFS. The statements about spec/20_memory.md: the byte listing of commands (R36), the words that a step takes from CMD
(R40), and what a completed command takes from DIN and puts on RSP, DOUT and the hash port (R41 to R45).
-/

namespace Sys2Proof.Machine

/-! ### What a completed command moves on the channels -/

/-- Leftover bytes that stand inside OC are all there to be read (R78). -/
theorem cacheSlice_length_of_le_leftover (x : PrngContext) (n : Nat)
    (h : 0 < leftover x → x.outputCachePosition + n ≤ 32) (hn : n ≤ leftover x) :
    (cacheSlice x.outputCache x.outputCachePosition n).length = n := by
  by_cases h0 : 0 < leftover x
  · exact cacheSlice_length _ _ _ (h h0)
  · obtain rfl : n = 0 := by omega
    simp

/-- A squeeze that does not fault delivers as many bytes as it was asked for (R77). -/
theorem squeeze_out_length (P : Config.Params) (n : Nat) (x : PrngContext) (r : Squeezed)
    (h : squeeze P n x = .ok r) : r.out.length = n := by
  have hb := squeeze_ok_bound P n x r h
  by_cases hn : n ≤ leftover x
  · rw [min_eq_left hn] at hb
    rw [squeeze_of_le P n x hb hn] at h
    cases h
    exact cacheSlice_length_of_le_leftover x n hb hn
  · have hgt : leftover x < n := by omega
    rw [min_eq_right hgt.le] at hb
    rw [squeeze_of_gt P n x hb hgt] at h
    cases h
    have hcache := cacheSlice_length_of_le_leftover x (leftover x) hb (Nat.le_refl _)
    have hblocks : n - leftover x ≤ 32 * blocksFor (n - leftover x) := by unfold blocksFor; omega
    rw [List.length_append, hcache, List.length_take, blockBytes_length]
    omega

/-- A squeeze that does not fault makes one hash request per block that the leftover bytes do not spare (R82). -/
theorem squeeze_requests (P : Config.Params) (n : Nat) (x : PrngContext) (r : Squeezed)
    (h : squeeze P n x = .ok r) :
    r.requests = blockRequests x.state x.counter (blocksFor (n - leftover x)) := by
  have hb := squeeze_ok_bound P n x r h
  by_cases hn : n ≤ leftover x
  · rw [squeeze_of_le P n x (by rwa [min_eq_left hn] at hb) hn] at h
    cases h
    rw [Nat.sub_eq_zero_of_le hn, blocksFor_zero, blockRequests_zero]
  · have hgt : leftover x < n := by omega
    rw [squeeze_of_gt P n x (by rwa [min_eq_right hgt.le] at hb) hgt] at h
    cases h
    rfl

/-- What a completed command answers: its status, the messages of its hash requests and its bytes for DOUT
(R42, R43, R45). An error comes with neither requests nor bytes (R110). -/
inductive Output (s : State) : Instr → Status → List (List Byte) → List Byte → Prop where
  | error (i : Instr) (e : Status) (he : e ≠ .ok) : Output s i e [] []
  | init (c n : Nat) : Output s (.init c n) .ok [] []
  | inject (c n : Nat) : Output s (.inject c n) .ok [] []
  | flip (c n : Nat) (x : PrngContext) (hx : s.slots[c]? = some x) : Output s (.flip c n) .ok [absorbed x] []
  | extract (c n : Nat) (x : PrngContext) (r : Squeezed) (hx : s.slots[c]? = some x)
      (hr : squeeze Config.params n x = .ok r) : Output s (.extract c n) .ok r.requests r.out

/-- From `s` to `t` the command has taken its payload from DIN and put its output on RSP, the hash port and DOUT, and
nothing else has changed but the slots (R41 to R45). -/
def Moves (i : Instr) (s t : State) : Prop :=
  ∃ e reqs out, Output s i e reqs out ∧ payloadLen i ≤ s.din.length ∧
    t = { s with
      slots := t.slots
      din := s.din.drop (payloadLen i)
      rsp := s.rsp ++ [e]
      hashRequests := s.hashRequests ++ reqs
      dout := s.dout ++ out }

/-- An error puts its status and takes the payload (R110). -/
theorem moves_of_error (i : Instr) (s : State) (e : Status) (he : e ≠ .ok) (hn : payloadLen i ≤ s.din.length) :
    Moves i s (putStatus e { s with din := s.din.drop (payloadLen i) }) :=
  ⟨e, [], [], .error i e he, hn, by simp [putStatus]⟩

/-- The errors of INJECT are not OK (R109). -/
theorem injectError_ne_ok (P : Config.Params) (n : Nat) (x : PrngContext) (e : Status)
    (h : injectError P n x = some e) : e ≠ .ok := by
  obtain ⟨-, rfl⟩ | ⟨-, -, rfl⟩ := (injectError_eq_some P n x e).1 h <;> nofun

/-- The slot that CTX names is one of the engine's slots (R57). -/
theorem getElem?_of_namedSlot (P : Config.Params) (s : State) (c : Nat) (x : PrngContext)
    (hx : namedSlot P s c = some x) : s.slots[c]? = some x :=
  ((namedSlot_eq_some P s c x).1 hx).2

/-- Everything a completed command can have done on the channels. -/
theorem exec_moves (i : Instr) (s t : State) (h : exec i s = .next t) : Moves i s t := by
  cases i with
  | init c n =>
    obtain ⟨-, ⟨-, rfl⟩ | ⟨x, -, rfl⟩⟩ := initOn_cases _ c n _ _ h
    · exact moves_of_error _ s _ nofun (Nat.zero_le _)
    · exact ⟨_, _, _, .init c n, Nat.zero_le _, by simp [putStatus, setSlot, payloadLen]⟩
  | inject c n =>
    obtain ⟨-, hn, ⟨-, rfl⟩ | ⟨x, e, -, he, rfl⟩ | ⟨x, -, -, rfl⟩⟩ := injectOn_cases _ c n _ _ h
    · exact moves_of_error _ s _ nofun hn
    · exact moves_of_error _ s e (injectError_ne_ok _ n x e he) hn
    · exact ⟨_, _, _, .inject c n, hn, by simp [putStatus, setSlot, payloadLen]⟩
  | flip c n =>
    obtain ⟨-, ⟨-, rfl⟩ | ⟨x, -, -, rfl⟩ | ⟨x, hx, -, -, rfl⟩⟩ := flipOn_cases _ c n _ _ h
    · exact moves_of_error _ s _ nofun (Nat.zero_le _)
    · exact moves_of_error _ s _ nofun (Nat.zero_le _)
    · exact ⟨_, _, _, .flip c n x (getElem?_of_namedSlot _ s c x hx), Nat.zero_le _,
        by simp [putStatus, putRequests, setSlot, payloadLen, absorbed]⟩
  | extract c n =>
    obtain ⟨-, ⟨-, rfl⟩ | ⟨x, -, -, rfl⟩ | ⟨x, r, hx, -, hr, -, rfl⟩⟩ := extractOn_cases _ c n _ _ h
    · exact moves_of_error _ s _ nofun (Nat.zero_le _)
    · exact moves_of_error _ s _ nofun (Nat.zero_le _)
    · exact ⟨_, _, _, .extract c n x r (getElem?_of_namedSlot _ s c x hx) hr, Nat.zero_le _,
        by simp [putStatus, putBytes, putRequests, setSlot, payloadLen]⟩

/-- Settles O25, by the cases of a command's output: only a completed EXTRACT has bytes for DOUT, those of its
squeeze. -/
theorem commandTraffic : Obligations.CommandTraffic := by
  intro i s t h
  obtain ⟨e, reqs, out, ho, hdin, ht⟩ := exec_moves i s t h
  have hbytes : (∀ c n, i = .extract c n → e = .ok → out.length = n) ∧
      ((∀ c n, i = .extract c n → e ≠ .ok) → out = []) := by
    cases ho with
    | error _ _ he => exact ⟨fun _ _ _ hok => absurd hok he, fun _ => rfl⟩
    | init => exact ⟨nofun, fun _ => rfl⟩
    | inject => exact ⟨nofun, fun _ => rfl⟩
    | flip => exact ⟨nofun, fun _ => rfl⟩
    | extract c n x r _ hr =>
      refine ⟨fun c' n' hi _ => ?_, fun hne => absurd rfl (hne c n rfl)⟩
      cases hi
      exact squeeze_out_length _ n x r hr
  rw [ht]
  exact ⟨e, out, hdin, rfl, rfl, rfl, hbytes.1, hbytes.2, rfl, rfl, rfl, rfl, rfl⟩

/-- Settles O26, by the cases of a command's output; the status on RSP is the output's own. -/
theorem hashRequestsOfACommand : Obligations.HashRequestsOfACommand := by
  intro i s t e h he
  obtain ⟨e', reqs, out, ho, -, ht⟩ := exec_moves i s t h
  rw [ht] at he ⊢
  obtain rfl : e' = e := by simpa using he
  refine ⟨reqs, rfl, ?_⟩
  cases ho with
  | error _ _ hne =>
    exact ⟨fun _ => rfl, fun _ _ _ => rfl, fun _ _ _ => rfl, fun _ _ _ hok => absurd hok hne,
      fun _ _ _ hok => absurd hok hne⟩
  | init => exact ⟨fun _ => rfl, fun _ _ _ => rfl, nofun, nofun, nofun⟩
  | inject => exact ⟨fun _ => rfl, nofun, fun _ _ _ => rfl, nofun, nofun⟩
  | flip c n x hx =>
    refine ⟨fun hne => absurd rfl hne, nofun, nofun, fun c' n' hi _ => ?_, nofun⟩
    cases hi
    exact ⟨x, hx, rfl⟩
  | extract c n x r hx hr =>
    refine ⟨fun hne => absurd rfl hne, nofun, nofun, nofun, fun c' n' hi _ => ?_⟩
    cases hi
    exact ⟨x, hx, squeeze_requests _ n x r hr⟩

/-! ### The byte listing -/

/-- The four listed bytes of a word make up the word again (R36). -/
theorem wordOfBytes_extractLsb' (w : Word) :
    wordOfBytes (w.extractLsb' 24 8) (w.extractLsb' 16 8) (w.extractLsb' 8 8) (w.extractLsb' 0 8) = w := by
  simp (disch := rfl) only [wordOfBytes, BitVec.extractLsb'_append_extractLsb'_eq_extractLsb',
    BitVec.extractLsb'_eq_self]

/-- Decoding the word of a well-formed command gives the command back (R54, R55). -/
theorem decode_encode (i : Instr) (h : i.WellFormed) : decode (encode i) = i := by
  obtain ⟨hctx, hlen⟩ := (wellFormed_iff i).1 h
  have hc := Nat.mod_eq_of_lt hctx
  have hl := Nat.mod_eq_of_lt hlen
  cases i with
  | init c n => exact (decode_packWord_init c n).trans (congrArg₂ Instr.init hc hl)
  | inject c n => exact (decode_packWord_inject c n).trans (congrArg₂ Instr.inject hc hl)
  | flip c n => exact (decode_packWord_flip c n).trans (congrArg₂ Instr.flip hc hl)
  | extract c n => exact (decode_packWord_extract c n).trans (congrArg₂ Instr.extract hc hl)

/-- The first four bytes of a listing are the bytes of its first command (R36). -/
theorem decodeBytes_bytesOfWord_append (w : Word) (rest : List Byte) :
    decodeBytes (bytesOfWord w ++ rest) = .ok (decode w, rest) := by
  simp only [bytesOfWord, List.cons_append, List.nil_append, decodeBytes, wordOfBytes_extractLsb']

/-- A listing is rejected exactly where it ends inside its first word. -/
theorem decodeBytes_eq_error (bs : List Byte) : decodeBytes bs = .error .truncatedWord ↔ bs.length < 4 := by
  rcases bs with _ | ⟨b3, _ | ⟨b2, _ | ⟨b1, _ | ⟨b0, rest⟩⟩⟩⟩ <;> simp [decodeBytes]

/-- Settles O6, by the round trip of a word through its four bytes and the round trip of a command through its word. -/
theorem listedBytesDecode : Obligations.ListedBytesDecode := by
  refine ⟨fun i rest hi => ?_, decodeBytes_eq_error, by decide⟩
  rw [encodeBytes, decodeBytes_bytesOfWord_append, decode_encode i hi]

/-! ### Taking a word from CMD -/

/-- Settles O14: with no reset asserted and a word on CMD, a step is in its third case. -/
theorem stepRunsDecodedCommand : Obligations.StepRunsDecodedCommand := by
  intro s w rest hreset hcmd
  simp only [step_eq, hreset, hcmd, Bool.false_eq_true, if_false]

/-- The payload placed with a command is LEN zero bytes for an INJECT and none for the others (R62). -/
theorem placedPayload_eq_replicate (i : Instr) : placedPayload i = List.replicate (payloadLen i) 0 := by
  cases i <;> rfl

/-- Of a number below 2^32 the placed word keeps every bit. -/
theorem tableWord_of_lt (w : Nat) (h : w < 2 ^ 32) : tableWord 32 w = BitVec.ofNat 32 w := by
  rw [tableWord, Nat.mod_eq_of_lt h]

/-- Settles O16: the placed word is the oldest on CMD and placing clears the reset input, so the step runs its command
(O14) on the rest of the state. -/
theorem placedWordRunsNext : Obligations.PlacedWordRunsNext := by
  intro s w hw
  have hrun := stepRunsDecodedCommand (s.withFetchWord 32 w) (tableWord 32 w) s.cmd rfl rfl
  rw [hrun, State.withFetchWord, placeWord, placedPayload_eq_replicate, tableWord_of_lt w hw]

end Sys2Proof.Machine
end

section
/-!
PROOFS. The statements about spec/30_encoding.md: command words and commands (R53 to R59), the status codes (R61), the
assembler's examples (R64) and requests longer than one LEN field (R66).
-/

namespace Sys2Proof.Machine

/-! ### Words and commands -/

/-- Settles O4, by the round trip of a packed word's fields: CTX and LEN that fit are read back whole, and OP picks the
command's own constructor. -/
theorem decodeOfEncodeIsTheCommand : Obligations.DecodeOfEncodeIsTheCommand := decode_encode

/-- The four values of OP (R55). -/
theorem opcodeValue_cases : ∀ op : BitVec 2, op = 0 ∨ op = 1 ∨ op = 2 ∨ op = 3 := by decide

/-- The command that a word decodes to has the word's OP (R55). -/
theorem opcode_decode (w : Word) : opcode (decode w) = opField w := by
  rw [← packWord_fields w, opField_packWord]
  obtain hop | hop | hop | hop := opcodeValue_cases (opField w) <;> rw [hop]
  · rw [decode_packWord_init, opcode]
  · rw [decode_packWord_inject, opcode]
  · rw [decode_packWord_flip, opcode]
  · rw [decode_packWord_extract, opcode]

/-- Every word decodes to a well-formed command: its CTX and LEN are fields of the word (R56, R57, R59). -/
theorem decode_wellFormed (w : Word) : (decode w).WellFormed := by
  rw [wellFormed_iff, ctx_decode, len_decode]
  exact ⟨ctxField_lt w, lenField_lt w⟩

/-- Encoding the command of a word gives the word back (R54, R55). -/
theorem encode_decode (w : Word) : encode (decode w) = w := by
  rw [encode, opcode_decode, ctx_decode, len_decode, packWord_fields]

/-- Settles O5, by the bounds of the fields and the round trip of a word through its fields. -/
theorem everyWordIsOneCommand : Obligations.EveryWordIsOneCommand :=
  fun w => ⟨decode_wellFormed w, encode_decode w⟩

/-! ### The opcode map -/

/-- Every command's word selects the command's own row (R55). -/
theorem encode_and_rowMask (i : Instr) : encode i &&& rowMask = rowMatch i := by
  cases i with
  | init c n => exact Laws.EncodeSelectsRow.init c n
  | inject c n => exact Laws.EncodeSelectsRow.inject c n
  | flip c n => exact Laws.EncodeSelectsRow.flip c n
  | extract c n => exact Laws.EncodeSelectsRow.extract c n

/-- Every word selects the row of the command it decodes to (R55). -/
theorem word_and_rowMask (w : Word) : w &&& rowMask = rowMatch (decode w) := by
  rw [← encode_and_rowMask, encode_decode]

/-- The match value of a row is its OP at bits 31:30, over zeros (R54, R55). -/
theorem rowMatch_eq_packWord (i : Instr) : rowMatch i = packWord (opcode i) 0 0 := by
  rw [← encode_and_rowMask, encode, packWord_and_rowMask]

/-- Rows with the same match value have the same OP (R55). -/
theorem opcode_eq_of_rowMatch_eq (i j : Instr) (h : rowMatch i = rowMatch j) : opcode i = opcode j := by
  rw [rowMatch_eq_packWord, rowMatch_eq_packWord] at h
  simpa using congrArg opField h

/-- A command is what a word decodes to where it has the word's three fields (R54, R55). -/
theorem decode_eq_of_fields (w : Word) (i : Instr) (hop : opField w = opcode i) (hctx : ctxField w = i.ctx)
    (hlen : lenField w = i.len) : decode w = i := by
  have hwf : i.WellFormed := (wellFormed_iff i).2 ⟨hctx ▸ ctxField_lt w, hlen ▸ lenField_lt w⟩
  have hw : encode i = w := by rw [encode, ← hop, ← hctx, ← hlen, packWord_fields]
  rw [← hw, decode_encode i hwf]

/-- A word selects a row of the opcode map exactly where it decodes to that row's command with its own CTX and LEN. -/
theorem selectsRow_iff (w : Word) (i : Instr) (hctx : ctxField w = i.ctx) (hlen : lenField w = i.len) :
    w &&& rowMask = rowMatch i ↔ decode w = i := by
  rw [word_and_rowMask]
  constructor
  · intro h
    have hop := opcode_eq_of_rowMatch_eq _ _ h
    exact decode_eq_of_fields w i (opcode_decode w ▸ hop) hctx hlen
  · intro h
    rw [h]

/-- The match values of the four rows (R55). -/
theorem rowMatch_cases (i : Instr) :
    rowMatch i = 0x00000000 ∨ rowMatch i = 0x40000000 ∨ rowMatch i = 0x80000000 ∨ rowMatch i = 0xc0000000 := by
  cases i <;> simp [rowMatch]

/-- Settles O2: a word selects the row of the command it decodes to, and a row and the word's CTX and LEN make up one
command. -/
theorem wordSelectsItsOpcodeRow : Obligations.WordSelectsItsOpcodeRow := fun w =>
  ⟨selectsRow_iff w (.init (ctxField w) (lenField w)) rfl rfl,
    selectsRow_iff w (.inject (ctxField w) (lenField w)) rfl rfl,
    selectsRow_iff w (.flip (ctxField w) (lenField w)) rfl rfl,
    selectsRow_iff w (.extract (ctxField w) (lenField w)) rfl rfl,
    word_and_rowMask w ▸ rowMatch_cases (decode w)⟩

/-! ### A word as a number -/

/-- The fields of a packed word stand side by side (R54). -/
theorem toNat_packWord (op : BitVec 2) (c n : Nat) :
    (packWord op c n).toNat = op.toNat * 2 ^ 30 + c % 2 ^ 6 * 2 ^ 24 + n % 2 ^ 24 := by
  have hc : c % 2 ^ 6 < 2 ^ 6 := Nat.mod_lt _ (by decide)
  have hn : n % 2 ^ 24 < 2 ^ 24 := Nat.mod_lt _ (by decide)
  rw [packWord, BitVec.toNat_append, BitVec.toNat_append, BitVec.toNat_ofNat, BitVec.toNat_ofNat,
    ← Nat.shiftLeft_add_eq_or_of_lt hc, ← Nat.shiftLeft_add_eq_or_of_lt hn, Nat.shiftLeft_eq, Nat.shiftLeft_eq]
  omega

/-- The number of a word whose CTX and LEN fit their fields (R54). -/
theorem toNat_packWord_of_lt (op : BitVec 2) (c n : Nat) (hc : c < 2 ^ 6) (hn : n < 2 ^ 24) :
    (packWord op c n).toNat = op.toNat * 2 ^ 30 + c * 2 ^ 24 + n := by
  rw [toNat_packWord, Nat.mod_eq_of_lt hc, Nat.mod_eq_of_lt hn]

/-- Settles O3: a word is packed from its fields and a command's word from the command's, and packed fields stand side by
side. -/
theorem wordIsTheNumberOfItsFields : Obligations.WordIsTheNumberOfItsFields := by
  refine ⟨fun w => ⟨?_, (opField w).isLt, ctxField_lt w, lenField_lt w⟩, fun i hi => ?_⟩
  · have hw := toNat_packWord_of_lt (opField w) (ctxField w) (lenField w) (ctxField_lt w) (lenField_lt w)
    rwa [packWord_fields] at hw
  · obtain ⟨hctx, hlen⟩ := (wellFormed_iff i).1 hi
    exact toNat_packWord_of_lt (opcode i) i.ctx i.len hctx hlen

/-- Settles O1: each word is the encoding of the well-formed command named beside it, so it decodes to that command. -/
theorem decodeSpecWords : Obligations.DecodeSpecWords :=
  ⟨decode_encode (.init 0 0) rfl, decode_encode (.init 0 16777215) rfl, decode_encode (.inject 0 10) rfl,
    decode_encode (.flip 1 0) rfl, decode_encode (.extract 0 32) rfl, decode_encode (.extract 63 16777215) rfl⟩

/-! ### Statuses -/

/-- A status read back from its code is the status (R61). -/
theorem statusOfCode_statusCode (e : Status) : statusOfCode (statusCode e) = e := by
  cases e <;> rfl

/-- Settles O7: what a completed command moves on the channels holds one status, and the codes are those of the table. -/
theorem statusCodesOnRsp : Obligations.StatusCodesOnRsp := by
  refine ⟨fun i s t h => ?_, rfl, rfl, rfl, rfl, statusOfCode_statusCode⟩
  obtain ⟨e, reqs, out, -, -, ht⟩ := exec_moves i s t h
  exact ⟨e, by rw [ht]⟩

/-! ### Requests longer than one LEN field -/

/-- The full parts and the rest make up the request (R66). -/
theorem splitLengths_sum (n : Nat) : (splitLengths n).sum = n := by
  have hdiv : n / maxLen * maxLen + n % maxLen = n := Nat.div_add_mod' n maxLen
  unfold splitLengths
  split
  · next hrest => simpa [hrest] using hdiv
  · simpa using hdiv

/-- A rest that is not 0 takes one more command, so the number of commands is the quotient rounded up (R66). -/
theorem splitLengths_length (n : Nat) : (splitLengths n).length = (n + (maxLen - 1)) / maxLen := by
  unfold splitLengths maxLen
  split
  · next hrest =>
    rw [List.append_nil, List.length_replicate]
    omega
  · next hrest =>
    rw [List.length_append, List.length_replicate, List.length_singleton]
    omega

/-- A full part is the largest LEN, and the rest is below it (R56, R66). -/
theorem splitLengths_le_maxLen (n k : Nat) (h : k ∈ splitLengths n) : k ≤ maxLen := by
  have hrest : n % maxLen < maxLen := Nat.mod_lt _ (by decide)
  rw [splitLengths, List.mem_append] at h
  obtain hfull | hlast := h
  · exact (List.eq_of_mem_replicate hfull).le
  · split at hlast
    · cases hlast
    · rw [List.mem_singleton] at hlast
      omega

/-- Settles O9, by the sum, the number and the size of the parts. -/
theorem longRequestSplits : Obligations.LongRequestSplits := fun n =>
  ⟨splitLengths_sum n, splitLengths_length n,
    fun k hk => Nat.lt_of_le_of_lt (splitLengths_le_maxLen n k hk) (by decide)⟩

/-! ### The assembler's examples -/

/-- Settles O8, by running the assembler on the three fixed lines of R64. -/
theorem assemblesSpecExamples : Obligations.AssemblesSpecExamples := by
  unfold Obligations.AssemblesSpecExamples
  decide

/-! ### Every command has a meaning -/

/-- INIT answers by completing or by raising an error (R67). -/
theorem initOn_not_refused (P : Config.Params) (c n : Nat) (s : State) (r : Refusal) :
    initOn P c n s ≠ .refused r := by
  unfold initOn
  split
  · exact respond_not_refused _ _ _
  · exact respond_not_refused _ _ _

/-- INJECT waits for its payload, faults in the buffer, completes or raises an error (R70, R126). -/
theorem injectOn_not_refused (P : Config.Params) (c n : Nat) (s : State) (r : Refusal) :
    injectOn P c n s ≠ .refused r := by
  unfold injectOn
  split
  · nofun
  · split
    · exact respond_not_refused _ _ _
    · split
      · exact respond_not_refused _ _ _
      · split
        · nofun
        · exact respond_not_refused _ _ _

/-- FLIP faults in the buffer, completes or raises an error (R74). -/
theorem flipOn_not_refused (P : Config.Params) (c n : Nat) (s : State) (r : Refusal) :
    flipOn P c n s ≠ .refused r := by
  unfold flipOn
  split
  · exact respond_not_refused _ _ _
  · split
    · exact respond_not_refused _ _ _
    · split
      · nofun
      · exact respond_not_refused _ _ _

/-- EXTRACT faults in the cache, completes with its bytes or raises an error (R77). -/
theorem extractOn_not_refused (P : Config.Params) (c n : Nat) (s : State) (r : Refusal) :
    extractOn P c n s ≠ .refused r := by
  unfold extractOn
  split
  · exact respond_not_refused _ _ _
  · split
    · exact respond_not_refused _ _ _
    · split
      · nofun
      · exact completeWithBytes_not_refused _ _ _

/-- Settles O28: each of the four commands completes, raises an error, waits or faults. -/
theorem noCommandIsRefused : Obligations.NoCommandIsRefused := by
  intro i s r
  cases i with
  | init c n => exact initOn_not_refused Config.params c n s r
  | inject c n => exact injectOn_not_refused Config.params c n s r
  | flip c n => exact flipOn_not_refused Config.params c n s r
  | extract c n => exact extractOn_not_refused Config.params c n s r

end Sys2Proof.Machine
end

section
/-!
PROOFS. The statements about spec/40_init.md: INIT writes one fresh context, whatever stood in the slot (R67, R68), and a
second INIT writes the same context again (R69 a).
-/

namespace Sys2Proof.Machine

/-! ### INIT of a slot the engine holds -/

/-- Of two writes to one slot the later stays (R25). -/
@[simp] theorem setSlot_setSlot (c : Nat) (x y : PrngContext) (s : State) :
    setSlot c y (setSlot c x s) = setSlot c y s := by
  simp [setSlot]

/-- Every slot of the engine below NCTX is named by its number (R57). -/
theorem namedSlot_of_lt (P : Config.Params) (s : State) (c : Nat) (hc : c < P.nctx) (hs : c < s.slots.length) :
    namedSlot P s c = some s.slots[c] :=
  (namedSlot_eq_some P s c _).2 ⟨hc, List.getElem?_eq_getElem hs⟩

/-- INIT of an existing slot completes with a fresh context in it; neither the phase nor LEN enters (R58, R67). -/
theorem exec_init_of_lt (c n : Nat) (s : State) (hc : c < Config.nctx) (hs : c < s.slots.length) :
    exec (.init c n) s = complete (setSlot c freshContext s) := by
  rw [exec_init, initOn, namedSlot_of_lt Config.params s c hc hs]

/-- Settles O29: the slot holds `freshContext`, whose fields are the values of R67. -/
theorem initCreatesContext : Obligations.InitCreatesContext := by
  intro c n s hc hs hready
  have hnext : exec (.init c n) s = .next (putStatus .ok (setSlot c freshContext s)) :=
    (exec_init_of_lt c n s hc hs).trans (complete_of_ready _ hready)
  exact ⟨freshContext, hnext, rfl, rfl, readByte_zeroedBuffer, rfl, rfl, rfl, rfl, rfl, rfl⟩

/-! ### Nothing earlier survives an INIT -/

/-- The answer of INIT does not depend on what its slot held (R68). -/
theorem exec_init_setSlot (c n : Nat) (s : State) (x : PrngContext) (hc : c < Config.nctx) (hs : c < s.slots.length) :
    exec (.init c n) (setSlot c x s) = exec (.init c n) s := by
  have hs' : c < (setSlot c x s).slots.length := by simpa using hs
  rw [exec_init_of_lt c n _ hc hs', exec_init_of_lt c n s hc hs, setSlot_setSlot]

/-- INIT after INIT of one slot, each with a LEN of its own, changes no slot (R69 a): where the second one writes, CTX
names a slot, so the first one has written the same context there. -/
theorem exec_init_twice_slots (c n n' : Nat) (s t u : State) (ht : exec (.init c n) s = .next t)
    (hu : exec (.init c n') t = .next u) : u.slots = t.slots := by
  obtain ⟨-, ⟨-, rfl⟩ | ⟨x, hx, rfl⟩⟩ := initOn_cases _ c n' _ _ hu
  · rfl
  · obtain ⟨-, ⟨hnone, rfl⟩ | ⟨-, -, rfl⟩⟩ := initOn_cases _ c n _ _ ht
    · rw [namedSlot_congr _ (putStatus .invalidArgument s) s c rfl, hnone] at hx
      cases hx
    · simp

/-- Settles O30: both contents of the slot give the answer of the engine as it was, and a second INIT writes what the
first one wrote. -/
theorem initForgetsTheEarlierContent : Obligations.InitForgetsTheEarlierContent :=
  ⟨fun c n s x x' hc hs => (exec_init_setSlot c n s x hc hs).trans (exec_init_setSlot c n s x' hc hs).symm,
    exec_init_twice_slots⟩

end Sys2Proof.Machine
end

section
/-!
PROOFS. The statements about spec/41_inject.md: an INJECT that fits appends its payload and nothing else (R70), INJECT of
no bytes changes no field (R72 a), and two INJECTs absorb what one INJECT of the concatenation absorbs (R73).
-/

namespace Sys2Proof.Machine

/-! ### A slot with a payload appended -/

/-- The slot content that an INJECT of `data` leaves (R70). -/
def appended (data : List Byte) (x : PrngContext) : PrngContext :=
  { x with
    inputBuffer := writeBytes x.inputBuffer x.bufferLength data
    bufferLength := x.bufferLength + data.length }

theorem absorb_eq_appended (P : Config.Params) (data : List Byte) (x : PrngContext)
    (h : x.bufferLength + data.length ≤ P.maxBufferSize) : absorb P data x = .ok (appended data x) :=
  absorb_of_room P data x h

@[simp] theorem appended_bufferLength (data : List Byte) (x : PrngContext) :
    (appended data x).bufferLength = x.bufferLength + data.length := rfl

@[simp] theorem phaseOf_appended (data : List Byte) (x : PrngContext) : phaseOf (appended data x) = phaseOf x := rfl

@[simp] theorem appended_nil (x : PrngContext) : appended [] x = x := rfl

/-- Appending in two parts is appending the concatenation (R73). -/
theorem appended_append (xs ys : List Byte) (x : PrngContext) :
    appended (xs ++ ys) x = appended ys (appended xs x) := by
  simp [appended, writeBytes_append, Nat.add_assoc]

/-- Byte `i` of the payload stands at `bufferLength + i` (R70). -/
theorem readByte_appended (data : List Byte) (x : PrngContext) (i : Nat) (hwf : Memory.wf x.inputBuffer = true)
    (hi : i < data.length) : some (readByte (appended data x).inputBuffer (x.bufferLength + i)) = data[i]? := by
  have hread := readByte_writeBytes x.inputBuffer x.bufferLength (x.bufferLength + i) data hwf
  rw [if_pos (by omega), Nat.add_sub_cancel_left, List.getD_eq_getElem data _ hi] at hread
  rw [List.getElem?_eq_getElem hi]
  exact congrArg some hread

/-! ### INJECT into an Accumulating slot -/

/-- The engine after an INJECT of `n` bytes that fit, where slot `c` held `x`. -/
def injected (c n : Nat) (x : PrngContext) (s : State) : State :=
  putStatus .ok (setSlot c (appended (s.din.take n) x) { s with din := s.din.drop n })

@[simp] theorem injected_din (c n : Nat) (x : PrngContext) (s : State) : (injected c n x s).din = s.din.drop n := rfl

@[simp] theorem injected_rsp (c n : Nat) (x : PrngContext) (s : State) : (injected c n x s).rsp = s.rsp ++ [.ok] := rfl

@[simp] theorem injected_rspReady (c n : Nat) (x : PrngContext) (s : State) :
    (injected c n x s).rspReady = s.rspReady := rfl

theorem injected_slot (c n : Nat) (x : PrngContext) (s : State) (hx : s.slots[c]? = some x) :
    (injected c n x s).slots[c]? = some (appended (s.din.take n) x) :=
  List.getElem?_set_self (List.getElem?_eq_some_iff.1 hx).1

/-- Two INJECTs that fit leave what one INJECT of all their bytes leaves, but for the second status (R73). -/
theorem injected_injected (c a b : Nat) (x : PrngContext) (s : State) :
    injected c b (appended (s.din.take a) x) (injected c a x s) =
      { injected c (a + b) x s with rsp := s.rsp ++ [.ok, .ok] } := by
  simp [injected, putStatus, setSlot, List.take_add, appended_append]

/-- INJECT of no bytes writes back what the slot held and takes nothing from DIN (R72 a). -/
theorem injected_zero (c : Nat) (x : PrngContext) (s : State) (hx : s.slots[c]? = some x) :
    injected c 0 x s = putStatus .ok s := by
  obtain ⟨hc, rfl⟩ := List.getElem?_eq_some_iff.1 hx
  simp [injected, setSlot]

/-- An INJECT that fits completes with OK and appends the bytes that it takes from DIN (R70). -/
theorem exec_inject_of_room (c n : Nat) (s : State) (x : PrngContext) (hc : c < Config.nctx)
    (hx : s.slots[c]? = some x) (hphase : phaseOf x = .accumulating)
    (hroom : x.bufferLength + n ≤ Config.maxBufferSize) (hready : s.rspReady = true) (hn : n ≤ s.din.length) :
    exec (.inject c n) s = .next (injected c n x s) := by
  have htake := (takePayload_eq_some n s _ _).2 ⟨hn, rfl, rfl⟩
  have hslot := (namedSlot_eq_some Config.params { s with din := s.din.drop n } c x).2 ⟨hc, hx⟩
  have hpass := (injectError_eq_none Config.params n x).2 ⟨hphase, hroom⟩
  have habsorb := absorb_eq_appended Config.params (s.din.take n) x (by simpa [hn] using hroom)
  simp only [exec_inject, injectOn, htake, hslot, hpass, habsorb]
  exact complete_of_ready _ hready

/-- An INJECT that does not fit takes its payload from DIN and fails (R71, R107). -/
theorem exec_inject_of_no_room (c n : Nat) (s : State) (x : PrngContext) (hc : c < Config.nctx)
    (hx : s.slots[c]? = some x) (hphase : phaseOf x = .accumulating)
    (hfull : Config.maxBufferSize < x.bufferLength + n) (hready : s.rspReady = true) (hn : n ≤ s.din.length) :
    exec (.inject c n) s = .next { s with din := s.din.drop n, rsp := s.rsp ++ [.capacityExceeded] } := by
  have htake := (takePayload_eq_some n s _ _).2 ⟨hn, rfl, rfl⟩
  have hslot := (namedSlot_eq_some Config.params { s with din := s.din.drop n } c x).2 ⟨hc, hx⟩
  have herror := (injectError_eq_some Config.params n x _).2 (.inr ⟨hphase, hfull, rfl⟩)
  simp only [exec_inject, injectOn, htake, hslot, herror]
  exact raise_of_ready _ _ hready

/-! ### The statements -/

/-- Settles O31: the memory is the one `appended` writes; its bytes are the rules of the sequence write. -/
theorem injectAppendsPayload : Obligations.InjectAppendsPayload := by
  intro c n s x hc hx hphase hroom hwf hready hn
  have hlen : (s.din.take n).length = n := List.length_take_of_le hn
  refine ⟨(appended (s.din.take n) x).inputBuffer, ?_, fun i hi => ?_, fun k hk => ?_, writeBytes_wf _ _ _ hwf⟩
  · rw [exec_inject_of_room c n s x hc hx hphase hroom hready hn]
    simp only [injected, appended, setSlot, putStatus, hlen]
  · rw [readByte_appended _ x i hwf (by omega), List.getElem?_take_of_lt hi]
  · exact readByte_writeBytes_outside _ _ _ _ hwf (by omega)

/-- Settles O32: an INJECT of no bytes always fits, a full buffer included, and `injected` is then the status alone. -/
theorem injectOfNothing : Obligations.InjectOfNothing := by
  intro c s x hc hx hphase hroom hready
  rw [exec_inject_of_room c 0 s x hc hx hphase hroom hready (Nat.zero_le _), injected_zero c x s hx]
  rfl

/-- Settles O33: the second INJECT of the split form starts from the slot with the first part appended, and its capacity
test sees the same sum as that of the single form. -/
theorem injectConcatenation : Obligations.InjectConcatenation := by
  intro c a b s x hc hx hphase hwf hready hdin
  have hlen : (s.din.take a).length = a := List.length_take_of_le (by omega)
  have first (hroom : x.bufferLength + a ≤ Config.maxBufferSize) :
      exec (.inject c a) s = .next (injected c a x s) :=
    exec_inject_of_room c a s x hc hx hphase hroom hready (by omega)
  have hslot := injected_slot c a x s hx
  have hrest : b ≤ (injected c a x s).din.length := by rw [injected_din, List.length_drop]; omega
  have hsum : (appended (s.din.take a) x).bufferLength + b = x.bufferLength + (a + b) := by
    rw [appended_bufferLength, hlen, Nat.add_assoc]
  constructor
  · intro hroom
    have hall : (s.din.take (a + b)).length = a + b := List.length_take_of_le hdin
    refine ⟨injected c (a + b) x s, injected c a x s, appended (s.din.take (a + b)) x,
      exec_inject_of_room c (a + b) s x hc hx hphase hroom hready hdin, first (by omega), rfl,
      injected_slot c (a + b) x s hx, congrArg (x.bufferLength + ·) hall, fun i hi => ?_, ?_⟩
    · rw [readByte_appended _ x i hwf (by omega), List.getElem?_take_of_lt hi]
    · rw [exec_inject_of_room c b _ _ hc hslot hphase (by omega) hready hrest, injected_injected]
  · intro hroom hfull
    refine ⟨injected c a x s, first hroom, rfl, ?_,
      exec_inject_of_no_room c (a + b) s x hc hx hphase hfull hready hdin⟩
    rw [exec_inject_of_no_room c b _ _ hc hslot hphase (by omega) hready hrest]
    simp

end Sys2Proof.Machine
end

section
/-!
PROOFS. The statement about spec/42_flip.md: FLIP of an Accumulating slot hashes exactly the absorbed bytes and finalizes
the slot (R74 to R76).
-/

namespace Sys2Proof.Machine

/-- The absorbed bytes are what MemRead of IB gives from its first byte on, as long as they fit the space (R33, R74);
with nothing absorbed they are none (R76). -/
theorem ibRead_absorbed (P : Config.Params) (x : PrngContext) (h : x.bufferLength ≤ P.maxBufferSize) :
    ibRead P x.inputBuffer 0 x.bufferLength = .ok (absorbed x) :=
  (ibRead_eq_ok P x.inputBuffer 0 x.bufferLength _).2 ⟨by omega, rfl⟩

/-- FLIP of an Accumulating slot makes one request with the absorbed bytes and finalizes the slot with its digest; LEN
does not enter (R58, R74). -/
theorem exec_flip_of_accumulating (c n : Nat) (s : State) (x : PrngContext) (hc : c < Config.nctx)
    (hx : s.slots[c]? = some x) (hphase : phaseOf x = .accumulating) (hroom : x.bufferLength ≤ Config.maxBufferSize) :
    exec (.flip c n) s =
      complete (setSlot c (finalizeContext (Config.hash256 (absorbed x)) x) (putRequests [absorbed x] s)) := by
  have hslot := (namedSlot_eq_some Config.params s c x).2 ⟨hc, hx⟩
  have hpass := (requirePhase_eq_none .accumulating x).2 hphase
  have hread := ibRead_absorbed Config.params x hroom
  simp only [exec_flip, flipOn, hslot, hpass, hread]
  rfl

/-- Settles O34: where the host takes the status, the completed FLIP has written the request, the slot by
`finalizeContext` and OK on RSP, and each of these updates leaves every other field. -/
theorem flipFinalizes : Obligations.FlipFinalizes := by
  intro c n s x hc hx hphase hroom hready
  rw [exec_flip_of_accumulating c n s x hc hx hphase hroom]
  exact complete_of_ready _ hready

end Sys2Proof.Machine
end

section
/-!
PROOFS. The statements about spec/43_extract.md: the bytes of a block message (R79 i), and EXTRACT of a Finalized slot
from the leftover bytes (R78), with new blocks (R79, R82, R83), of no bytes (R81) and at the counter's wrap (R80).
-/

namespace Sys2Proof.Machine

/-! ### The block message -/

/-- Keeping the low 8 bits of a number does not change the byte that it becomes (R11). -/
theorem ofNat_and_byteMask (n : Nat) : BitVec.ofNat 8 (n &&& 0xff) = BitVec.ofNat 8 n := by
  have hmod : n &&& 0xff = n % 2 ^ 8 := Nat.and_two_pow_sub_one_eq_mod n 8
  apply BitVec.eq_of_toNat_eq
  rw [hmod, BitVec.toNat_ofNat, BitVec.toNat_ofNat, Nat.mod_mod]

/-- Byte `k` of `BE64` has `7 - k` less significant bytes below it (R11, R35). -/
theorem be64_getElem? (j : BitVec 64) (k : Nat) (hk : k < 8) :
    (be64 j)[k]? = some (j.extractLsb' (8 * (7 - k)) 8) := by
  interval_cases k <;> rfl

theorem blockMessage_getElem?_of_lt (d : Digest) (j : BitVec 64) (i : Nat) (hi : i < 32) :
    (blockMessage d j)[i]? = some d[i] := by
  have hlen : i < d.toList.length := by simpa using hi
  rw [blockMessage, List.getElem?_append_left hlen, List.getElem?_eq_getElem hlen, Vector.getElem_toList]

theorem blockMessage_getElem?_add (d : Digest) (j : BitVec 64) (k : Nat) :
    (blockMessage d j)[32 + k]? = (be64 j)[k]? := by
  have hlen : d.toList.length = 32 := Vector.length_toList
  rw [blockMessage, List.getElem?_append_right (by omega), hlen, Nat.add_sub_cancel_left]

/-- Settles O35: below 32 the message is `state`, from 32 on it is `BE64` of the counter, whose bytes are cut out of the
counter by a shift. -/
theorem blockMessageBytes : Obligations.BlockMessageBytes := by
  intro d j
  refine ⟨blockMessage_length d j, fun i hi => blockMessage_getElem?_of_lt d j i hi, fun k hk => ?_⟩
  rw [blockMessage_getElem?_add, be64_getElem? j k hk, ofNat_and_byteMask]
  rfl

/-! ### EXTRACT of a slot that CTX names -/

/-- Writing back what a slot holds changes nothing. -/
theorem set_getElem?_self (slots : List PrngContext) (c : Nat) (x : PrngContext) (hx : slots[c]? = some x) :
    slots.set c x = slots := by
  obtain ⟨hc, rfl⟩ := List.getElem?_eq_some_iff.1 hx
  exact List.set_getElem_self hc

/-- The bytes left over end inside OC (R34, R93). -/
theorem cursor_add_leftover_le (x : PrngContext) (h : CursorInRange x) : x.outputCachePosition + leftover x ≤ 32 := by
  obtain ⟨hpos, hlen⟩ := h
  unfold leftover
  omega

/-- EXTRACT of a Finalized slot writes what the squeeze answers, where the host takes the status and the bytes (R77). -/
theorem exec_extract_of_squeeze (c n : Nat) (s : State) (x : PrngContext) (r : Squeezed) (hc : c < Config.nctx)
    (hx : s.slots[c]? = some x) (hphase : phaseOf x = .finalized) (hr : squeeze Config.params n x = .ok r)
    (hready : s.rspReady = true) (hout : s.doutReady = true ∨ r.out = []) :
    exec (.extract c n) s = .next
      { s with
        slots := s.slots.set c r.slot
        rsp := s.rsp ++ [.ok]
        dout := s.dout ++ r.out
        hashRequests := s.hashRequests ++ r.requests } := by
  have hslot := (namedSlot_eq_some Config.params s c x).2 ⟨hc, hx⟩
  have hpass := (requirePhase_eq_none .finalized x).2 hphase
  simp only [exec_extract, extractOn, hslot, hpass, hr]
  exact (completeWithBytes_eq_next _ _ _).2 ⟨hready, hout, rfl⟩

/-- EXTRACT of a slot that is not Finalized fails, whatever its LEN (R77, R106). -/
theorem exec_extract_of_not_finalized (c n : Nat) (s : State) (x : PrngContext) (hc : c < Config.nctx)
    (hx : s.slots[c]? = some x) (hphase : phaseOf x ≠ .finalized) (hready : s.rspReady = true) :
    exec (.extract c n) s = .next { s with rsp := s.rsp ++ [.invalidState] } := by
  have hslot := (namedSlot_eq_some Config.params s c x).2 ⟨hc, hx⟩
  have herror := (requirePhase_eq_some .finalized x _).2 ⟨hphase, rfl⟩
  simp only [exec_extract, extractOn, hslot, herror]
  exact raise_of_ready _ _ hready

/-- EXTRACT of bytes that are left over: it moves the cursor, makes no request, and waits for the host's taking of
output bytes only where it has some (R78). -/
theorem exec_extract_of_le (c n : Nat) (s : State) (x : PrngContext) (hc : c < Config.nctx)
    (hx : s.slots[c]? = some x) (hphase : phaseOf x = .finalized) (hcursor : CursorInRange x) (hn : n ≤ leftover x)
    (hready : s.rspReady = true) (hout : s.doutReady = true ∨ n = 0) :
    exec (.extract c n) s = .next
      { s with
        slots := s.slots.set c { x with outputCachePosition := x.outputCachePosition + n }
        rsp := s.rsp ++ [.ok]
        dout := s.dout ++ cacheSlice x.outputCache x.outputCachePosition n } := by
  have hend := cursor_add_leftover_le x hcursor
  have hr := squeeze_of_le Config.params n x (fun _ => by omega) hn
  have hbytes := hout.imp_right fun h0 : n = 0 => h0 ▸ cacheSlice_zero x.outputCache x.outputCachePosition
  rw [exec_extract_of_squeeze c n s x _ hc hx hphase hr hready hbytes]
  simp only [List.append_nil]

/-! ### The statements -/

/-- Settles O36: the leftover bytes asked for are the slice of the cache from the cursor on. -/
theorem extractServesLeftover : Obligations.ExtractServesLeftover := by
  intro c n s x hc hx hphase hcursor hn hready hdout
  exact exec_extract_of_le c n s x hc hx hphase hcursor hn hready (.inl hdout)

/-- Settles O37, by the closed form of the squeeze that needs new blocks, itself the induction over the rounds of the
block generator (`generateBlocks_eq`). -/
theorem extractGeneratesBlocks : Obligations.ExtractGeneratesBlocks := by
  intro c n s x hc hx hphase hcursor hn hready hdout
  have hr := squeeze_of_gt Config.params n x (fun _ => cursor_add_leftover_le x hcursor) hn
  exact exec_extract_of_squeeze c n s x _ hc hx hphase hr hready (.inl hdout)

/-- Settles O38: on a Finalized slot no bytes are always left over, and the cursor moved by 0 writes back the slot; on
any other slot LEN is not looked at. -/
theorem extractOfNothing : Obligations.ExtractOfNothing := by
  intro c s x hc hx hready
  refine ⟨fun hphase hcursor => ?_, fun hphase => exec_extract_of_not_finalized c 0 s x hc hx hphase hready⟩
  rw [exec_extract_of_le c 0 s x hc hx hphase hcursor (Nat.zero_le _) hready (.inr rfl)]
  simp only [Nat.add_zero, set_getElem?_self s.slots c x hx, cacheSlice_zero, List.append_nil]

/-- Settles O39: 1 to 32 bytes beyond the leftover are one block (O37), so the counter goes from `2^64 - 1` to 0. -/
theorem counterWraps : Obligations.CounterWraps := by
  intro c n s x hc hx hphase hcursor hgt hle hcounter hready hdout
  have hone : blocksFor (n - leftover x) = 1 := by unfold blocksFor; omega
  have hwrap : x.counter + BitVec.ofNat 64 (blocksFor (n - leftover x)) = 0 := by
    rw [hone, hcounter]
    decide
  have hc' : c < s.slots.length := (List.getElem?_eq_some_iff.1 hx).1
  exact ⟨_, _, extractGeneratesBlocks c n s x hc hx hphase hcursor hgt hready hdout, rfl,
    List.getElem?_set_self hc', hwrap⟩

end Sys2Proof.Machine
end

section
/-!
PROOFS. The four commands as one scheme: the payload is taken, CTX names a slot or not, the transition table R89 of
spec/44_laws_and_properties.md gives the status, and where that is OK the command has an effect that its slot and
payload alone fix. From that the locality of a command (R98, R101).
-/

namespace Sys2Proof.Machine

/-! ### The phase tests and the table -/

/-- The error that a status cell of R89 stands for. -/
def errorOf (e : Status) : Option Status := if e = .ok then none else some e

theorem injectError_eq_table (P : Config.Params) (c n : Nat) (x : PrngContext) :
    injectError P n x = errorOf (tableStatus P (.inject c n) x) := by
  cases hphase : phaseOf x with
  | uninitialized => simp [injectError, firstError, requirePhase, tableStatus, errorOf, hphase]
  | finalized => simp [injectError, firstError, requirePhase, tableStatus, errorOf, hphase]
  | accumulating =>
    by_cases hroom : x.bufferLength + n ≤ P.maxBufferSize
    · simp [injectError, firstError, requirePhase, requireRoom, tableStatus, errorOf, hphase, hroom]
    · have hfull : P.maxBufferSize < x.bufferLength + n := by omega
      simp [injectError, firstError, requirePhase, requireRoom, tableStatus, errorOf, hphase, hroom, hfull]

theorem requirePhase_accumulating_eq_table (P : Config.Params) (c n : Nat) (x : PrngContext) :
    requirePhase .accumulating x = errorOf (tableStatus P (.flip c n) x) := by
  cases hphase : phaseOf x <;> simp [requirePhase, tableStatus, errorOf, hphase]

theorem requirePhase_finalized_eq_table (P : Config.Params) (c n : Nat) (x : PrngContext) :
    requirePhase .finalized x = errorOf (tableStatus P (.extract c n) x) := by
  cases hphase : phaseOf x <;> simp [requirePhase, tableStatus, errorOf, hphase]

/-- The cells of INJECT that are OK (R89). -/
theorem tableStatus_inject_eq_ok (P : Config.Params) (c n : Nat) (x : PrngContext) :
    tableStatus P (.inject c n) x = .ok ↔ phaseOf x = .accumulating ∧ x.bufferLength + n ≤ P.maxBufferSize := by
  cases hphase : phaseOf x <;> simp [tableStatus, hphase]

/-- The cell of FLIP that is OK (R89). -/
theorem tableStatus_flip_eq_ok (P : Config.Params) (c n : Nat) (x : PrngContext) :
    tableStatus P (.flip c n) x = .ok ↔ phaseOf x = .accumulating := by
  cases hphase : phaseOf x <;> simp [tableStatus, hphase]

/-- The cell of EXTRACT that is OK (R89). -/
theorem tableStatus_extract_eq_ok (P : Config.Params) (c n : Nat) (x : PrngContext) :
    tableStatus P (.extract c n) x = .ok ↔ phaseOf x = .finalized := by
  cases hphase : phaseOf x <;> simp [tableStatus, hphase]

/-! ### Every command by one scheme -/

/-- What a command with status OK does with the content `x` of its slot and its payload `data`: the slot's content after
it, its bytes for DOUT and its hash requests (R67, R70, R74, R77). -/
def effect (i : Instr) (data : List Byte) (x : PrngContext) : Except Fault Squeezed :=
  match i with
  | .init _ _ => .ok { slot := freshContext, out := [], requests := [] }
  | .inject _ _ => (absorb Config.params data x).map fun y => { slot := y, out := [], requests := [] }
  | .flip _ _ => (ibRead Config.params x.inputBuffer 0 x.bufferLength).map fun M =>
      { slot := finalizeContext (Config.hash256 M) x, out := [], requests := [M] }
  | .extract _ n => squeeze Config.params n x

/-- Complete a command that had an effect on slot `c`. -/
def finish (c : Nat) (a : Except Fault Squeezed) (s : State) : Answer :=
  match a with
  | .error f => .fault f
  | .ok r => completeWithBytes r.out (putRequests r.requests (setSlot c r.slot s))

/-- The command on the slot that its CTX names, its payload `data` taken: the status of its cell, and its effect where
that is OK (R89). -/
def runOnSlot (i : Instr) (data : List Byte) (slot : Option PrngContext) (s : State) : Answer :=
  match slot with
  | none => raise .invalidArgument s
  | some x =>
    match errorOf (tableStatus Config.params i x) with
    | some e => raise e s
    | none => finish i.ctx (effect i data x) s

theorem runOnSlot_of_ok (i : Instr) (data : List Byte) (x : PrngContext) (s : State)
    (h : tableStatus Config.params i x = .ok) : runOnSlot i data (some x) s = finish i.ctx (effect i data x) s := by
  simp only [runOnSlot, errorOf, h, if_true]

theorem runOnSlot_of_error (i : Instr) (data : List Byte) (x : PrngContext) (s : State)
    (h : tableStatus Config.params i x ≠ .ok) :
    runOnSlot i data (some x) s = raise (tableStatus Config.params i x) s := by
  simp only [runOnSlot, errorOf, h, if_false]

/-- The scheme of a whole command: it waits for its payload, takes it, and runs on the slot that CTX names. -/
def runCommand (i : Instr) (s : State) : Answer :=
  match takePayload (payloadLen i) s with
  | none => .fault .waitingForPayload
  | some (data, s1) => runOnSlot i data (namedSlot Config.params s1 i.ctx) s1

/-- A command without output bytes completes as an EXTRACT of no bytes does. -/
theorem completeWithBytes_nil (s : State) : completeWithBytes [] s = complete s := by
  simp [completeWithBytes, complete, respond, putBytes, putStatus]

@[simp] theorem putRequests_nil (s : State) : putRequests [] s = s := by
  simp [putRequests]

/-- An effect without bytes and requests completes with the slot's new content alone. -/
theorem finish_silent (c : Nat) (y : PrngContext) (s : State) :
    finish c (.ok { slot := y, out := [], requests := [] }) s = complete (setSlot c y s) := by
  rw [finish, completeWithBytes_nil, putRequests_nil]

/-- A command whose payload is there takes it and runs on the slot that CTX names. -/
theorem runCommand_of_payload (i : Instr) (s : State) (h : payloadLen i ≤ s.din.length) :
    runCommand i s = runOnSlot i (s.din.take (payloadLen i)) (namedSlot Config.params s i.ctx)
      { s with din := s.din.drop (payloadLen i) } := by
  rw [runCommand, (takePayload_eq_some _ s _ _).2 ⟨h, rfl, rfl⟩]
  rfl

/-- A command without payload runs on the engine as it is. -/
theorem runCommand_of_no_payload (i : Instr) (s : State) (h : payloadLen i = 0) :
    runCommand i s = runOnSlot i [] (namedSlot Config.params s i.ctx) s := by
  rw [runCommand_of_payload i s (h ▸ Nat.zero_le _), h]
  rfl

theorem initOn_eq_run (c n : Nat) (s : State) : initOn Config.params c n s = runCommand (.init c n) s := by
  rw [runCommand_of_no_payload _ s rfl, initOn, Instr.ctx]
  cases namedSlot Config.params s c with
  | none => rfl
  | some x => exact (finish_silent c freshContext s).symm

theorem injectOn_eq_run (c n : Nat) (s : State) : injectOn Config.params c n s = runCommand (.inject c n) s := by
  rw [injectOn, runCommand, payloadLen, Instr.ctx]
  cases takePayload n s with
  | none => rfl
  | some taken =>
    obtain ⟨data, s1⟩ := taken
    cases hslot : namedSlot Config.params s1 c with
    | none => simp only [hslot, runOnSlot]
    | some x =>
      simp only [hslot, injectError_eq_table Config.params c n x, runOnSlot]
      cases errorOf (tableStatus Config.params (.inject c n) x) with
      | some e => rfl
      | none =>
        rw [effect]
        cases absorb Config.params data x with
        | error f => rfl
        | ok y => exact (finish_silent c y s1).symm

theorem flipOn_eq_run (c n : Nat) (s : State) : flipOn Config.params c n s = runCommand (.flip c n) s := by
  rw [runCommand_of_no_payload _ s rfl, flipOn, Instr.ctx]
  cases namedSlot Config.params s c with
  | none => rfl
  | some x =>
    simp only [requirePhase_accumulating_eq_table Config.params c n x, runOnSlot]
    cases errorOf (tableStatus Config.params (.flip c n) x) with
    | some e => rfl
    | none =>
      rw [effect]
      cases ibRead Config.params x.inputBuffer 0 x.bufferLength with
      | error f => rfl
      | ok M => exact (completeWithBytes_nil _).symm

theorem extractOn_eq_run (c n : Nat) (s : State) : extractOn Config.params c n s = runCommand (.extract c n) s := by
  rw [runCommand_of_no_payload _ s rfl, extractOn, Instr.ctx]
  cases namedSlot Config.params s c with
  | none => rfl
  | some x =>
    simp only [requirePhase_finalized_eq_table Config.params c n x, runOnSlot]
    cases errorOf (tableStatus Config.params (.extract c n) x) with
    | some e => rfl
    | none =>
      rw [effect]
      cases squeeze Config.params n x with
      | error f => rfl
      | ok r => rfl

/-- Every command runs by the scheme. -/
theorem exec_eq_run (i : Instr) (s : State) : exec i s = runCommand i s := by
  cases i with
  | init c n => exact initOn_eq_run c n s
  | inject c n => exact injectOn_eq_run c n s
  | flip c n => exact flipOn_eq_run c n s
  | extract c n => exact extractOn_eq_run c n s

/-! ### What a completed command has done -/

/-- The engine after a command that failed with `e` (R41, R110). -/
def failed (i : Instr) (e : Status) (s : State) : State :=
  { s with din := s.din.drop (payloadLen i), rsp := s.rsp ++ [e] }

/-- The engine after a command that had the effect `r`. -/
def succeeded (i : Instr) (r : Squeezed) (s : State) : State :=
  { s with
    slots := s.slots.set i.ctx r.slot
    din := s.din.drop (payloadLen i)
    rsp := s.rsp ++ [.ok]
    dout := s.dout ++ r.out
    hashRequests := s.hashRequests ++ r.requests }

/-- `t` is the state that command `i` leaves in `s`, by the cell of the transition table R89. -/
inductive Completes (i : Instr) (s : State) : State → Prop where
  | unnamed (hslot : namedSlot Config.params s i.ctx = none) : Completes i s (failed i .invalidArgument s)
  | error (x : PrngContext) (hslot : namedSlot Config.params s i.ctx = some x)
      (hcell : tableStatus Config.params i x ≠ .ok) : Completes i s (failed i (tableStatus Config.params i x) s)
  | ok (x : PrngContext) (r : Squeezed) (hslot : namedSlot Config.params s i.ctx = some x)
      (hcell : tableStatus Config.params i x = .ok)
      (heffect : effect i (s.din.take (payloadLen i)) x = .ok r) : Completes i s (succeeded i r s)

/-- Everything a completed command can have done. -/
theorem completes_of_exec (i : Instr) (s t : State) (h : exec i s = .next t) : Completes i s t := by
  rw [exec_eq_run] at h
  by_cases hn : payloadLen i ≤ s.din.length
  · rw [runCommand_of_payload i s hn] at h
    cases hslot : namedSlot Config.params s i.ctx with
    | none =>
      rw [hslot] at h
      obtain ⟨-, rfl⟩ := (raise_eq_next _ _ _).1 h
      exact .unnamed hslot
    | some x =>
      rw [hslot] at h
      by_cases hcell : tableStatus Config.params i x = .ok
      · rw [runOnSlot_of_ok i _ x _ hcell] at h
        cases heffect : effect i (s.din.take (payloadLen i)) x with
        | error f =>
          rw [heffect] at h
          cases h
        | ok r =>
          rw [heffect] at h
          obtain ⟨-, -, rfl⟩ := (completeWithBytes_eq_next _ _ _).1 h
          exact .ok x r hslot hcell heffect
      · rw [runOnSlot_of_error i _ x _ hcell] at h
        obtain ⟨-, rfl⟩ := (raise_eq_next _ _ _).1 h
        exact .error x hslot hcell
  · rw [runCommand, (takePayload_eq_none _ s).2 (Nat.lt_of_not_le hn)] at h
    cases h

/-- A command whose payload is there and whose host is ready does complete. -/
theorem exec_of_completes (i : Instr) (s t : State) (hn : payloadLen i ≤ s.din.length) (hready : s.rspReady = true)
    (hdout : s.doutReady = true) (h : Completes i s t) : exec i s = .next t := by
  rw [exec_eq_run, runCommand_of_payload i s hn]
  cases h with
  | unnamed hslot =>
    rw [hslot]
    exact raise_of_ready _ _ hready
  | error x hslot hcell =>
    rw [hslot, runOnSlot_of_error i _ x _ hcell]
    exact raise_of_ready _ _ hready
  | ok x r hslot hcell heffect =>
    rw [hslot, runOnSlot_of_ok i _ x _ hcell, heffect]
    exact completeWithBytes_of_ready _ _ hready hdout

/-! ### Locality -/

theorem namedSlot_congr_slot (P : Config.Params) (s s' : State) (c : Nat) (h : s.slots[c]? = s'.slots[c]?) :
    namedSlot P s c = namedSlot P s' c := by
  rw [namedSlot_def, namedSlot_def, h]

/-- Settles O50: the scheme looks at the slot that CTX names and at the payload, and the case that `s` takes is the case
that `s'` takes, with the same status and effect. -/
theorem commandIsLocalToItsSlot : Obligations.CommandIsLocalToItsSlot := by
  intro i s s' t hsame hn hdin hready hdout h
  have hname := namedSlot_congr_slot Config.params s s' i.ctx hsame
  have run (t' : State) := exec_of_completes i s' t' hn hready hdout
  cases completes_of_exec i s t h with
  | unnamed hslot =>
    refine ⟨_, .invalidArgument, [], [], run _ (.unnamed (hname ▸ hslot)), hsame, rfl, rfl, ?_⟩
    simp [failed]
  | error x hslot hcell =>
    refine ⟨_, _, [], [], run _ (.error x (hname ▸ hslot) hcell), hsame, rfl, rfl, ?_⟩
    simp [failed]
  | ok x r hslot hcell heffect =>
    have hx := getElem?_of_namedSlot _ s i.ctx x hslot
    have hc := (List.getElem?_eq_some_iff.1 hx).1
    have hc' := (List.getElem?_eq_some_iff.1 (hsame ▸ hx)).1
    refine ⟨_, .ok, r.out, r.requests, run _ (.ok x r (hname ▸ hslot) hcell (hdin ▸ heffect)), ?_, rfl, rfl, rfl, rfl,
      rfl, rfl⟩
    exact (List.getElem?_set_self hc).trans (List.getElem?_set_self hc').symm

end Sys2Proof.Machine
end

section
/-!
PROOFS. The engine's invariant (spec/44_laws_and_properties.md rules R92 to R94, spec/00_scope.md rule R9): it holds
of the reset state, every effect of a command keeps it in the slot that it writes, and so every step keeps it; and
with it every command completes by its cell of the transition table (R89).
-/

namespace Sys2Proof.Machine

/-! ### The storage space IB -/

theorem bufferOk_nil (P : Config.Params) : BufferOk P [] := ⟨rfl, nofun⟩

/-- A write inside the space keeps its form (R32, R33). -/
theorem bufferOk_writeBytes (P : Config.Params) (m : Memory) (a : Nat) (data : List Byte) (hm : BufferOk P m)
    (hroom : a + data.length ≤ P.maxBufferSize) : BufferOk P (writeBytes m a data) := by
  obtain ⟨hwf, hin⟩ := hm
  refine ⟨writeBytes_wf m a data hwf, fun cell hcell => ?_⟩
  obtain hold | ⟨-, hlt⟩ := mem_writeBytes m a data cell hcell
  · exact hin cell hold
  · omega

/-! ### The slots that the operations write -/

/-- Of a slot that is not initialized the invariant asks the form of IB alone (R92 to R94). -/
theorem slotOk_of_not_initialized (P : Config.Params) (x : PrngContext) (hbuffer : BufferOk P x.inputBuffer)
    (hinit : x.initialized = false) : SlotOk P x := by
  have hphase := (phaseOf_uninitialized x).2 hinit
  exact ⟨hbuffer, fun h => absurd (hinit.symm.trans h) nofun, fun h => absurd (hphase.symm.trans h) nofun,
    fun h => absurd (hphase.symm.trans h) nofun⟩

theorem slotOk_atReset (P : Config.Params) : SlotOk P PrngContext.atReset :=
  slotOk_of_not_initialized P _ (bufferOk_nil P) rfl

/-- Whatever hardware reset leaves in a slot, IB is MAX_BUFFER_SIZE bytes long (R32, R120). -/
theorem slotOk_unspecifiedContext (P : Config.Params) (r c : Nat) : SlotOk P (unspecifiedContext P r c) :=
  slotOk_of_not_initialized P _ (bufferOk_writeBytes P [] 0 _ (bufferOk_nil P) (by simp)) rfl

theorem slotOk_freshContext (P : Config.Params) : SlotOk P freshContext :=
  ⟨bufferOk_nil P, fun _ => Nat.zero_le _, fun _ => ⟨rfl, rfl, rfl, rfl, rfl⟩, nofun⟩

/-- A payload that fits is appended inside IB and touches no other field (R70). -/
theorem slotOk_appended (P : Config.Params) (data : List Byte) (x : PrngContext) (hx : SlotOk P x)
    (hphase : phaseOf x = .accumulating) (hroom : x.bufferLength + data.length ≤ P.maxBufferSize) :
    SlotOk P (appended data x) := by
  obtain ⟨hbuffer, -, haccumulating, -⟩ := hx
  exact ⟨bufferOk_writeBytes P _ _ _ hbuffer hroom, fun _ => hroom, fun _ => haccumulating hphase,
    fun h => absurd (hphase.symm.trans h) nofun⟩

/-- FLIP stores the hash of the absorbed bytes and no block is generated yet (R74, R93). -/
theorem slotOk_finalizeContext (P : Config.Params) (x : PrngContext) (hx : SlotOk P x) :
    SlotOk P (finalizeContext (P.hash256 (absorbed x)) x) := by
  obtain ⟨hbuffer, hlen, -, -⟩ := hx
  refine ⟨hbuffer, hlen, fun h => ?_, fun _ => ⟨rfl, .inl ⟨rfl, rfl, rfl⟩⟩⟩
  exact absurd ((phaseOf_accumulating _).1 h).2 nofun

/-! ### The cursor of a Finalized slot -/

/-- The cursor that R93 allows never leaves OC (R34). -/
theorem cursorInRange_of_cursorOk (P : Config.Params) (x : PrngContext) (h : CursorOk P x) : CursorInRange x := by
  unfold CursorInRange
  obtain ⟨-, hpos, hlen⟩ | ⟨hlen, -, hpos, -⟩ := h <;> omega

theorem squeeze_of_cursorInRange (P : Config.Params) (n : Nat) (x : PrngContext) (h : CursorInRange x) :
    ∃ r, squeeze P n x = .ok r := by
  have hend := cursor_add_leftover_le x h
  by_cases hn : n ≤ leftover x
  · exact ⟨_, squeeze_of_le P n x (fun _ => by omega) hn⟩
  · exact ⟨_, squeeze_of_gt P n x (fun _ => hend) (by omega)⟩

/-- The counter before the last of `m` new blocks is the index of that block. -/
theorem counter_add_blocks_sub_one (j : BitVec 64) (m : Nat) (hm : 0 < m) :
    j + BitVec.ofNat 64 m - 1 = j + BitVec.ofNat 64 (m - 1) := by
  obtain ⟨k, rfl⟩ := Nat.exists_eq_succ_of_ne_zero hm.ne'
  rw [Nat.succ_sub_one, Nat.succ_eq_add_one, ← counter_add, BitVec.add_assoc, BitVec.add_comm 1,
    ← BitVec.add_assoc, BitVec.add_sub_cancel]

/-- EXTRACT keeps the cursor's invariant: it moves the cursor inside the same block, or the cache holds the last block
that it generated (R83, R93). -/
theorem cursorOk_squeeze (P : Config.Params) (n : Nat) (x : PrngContext) (r : Squeezed) (hx : CursorOk P x)
    (hr : squeeze P n x = .ok r) : CursorOk P r.slot := by
  have hend := cursor_add_leftover_le x (cursorInRange_of_cursorOk P x hx)
  by_cases hn : n ≤ leftover x
  · rw [squeeze_of_le P n x (fun _ => by omega) hn] at hr
    cases hr
    unfold leftover at hn
    obtain ⟨hcounter, hpos, hlen⟩ | ⟨hlen, hlow, hhigh, hcache⟩ := hx
    · exact .inl ⟨hcounter, by simp only; omega, hlen⟩
    · exact .inr ⟨hlen, by simp only; omega, by simp only; omega, hcache⟩
  · rw [squeeze_of_gt P n x (fun _ => hend) (by omega)] at hr
    cases hr
    have hblocks : 0 < blocksFor (n - leftover x) := blocksFor_pos _ (by omega)
    have hrounded : 32 * blocksFor (n - leftover x) < n - leftover x + 32 ∧
        n - leftover x ≤ 32 * blocksFor (n - leftover x) := by unfold blocksFor; omega
    refine .inr ⟨rfl, by simp only; omega, by simp only; omega, ?_⟩
    simp only [counter_add_blocks_sub_one _ _ hblocks]

/-- EXTRACT keeps the invariant of its slot: it writes the counter and the cache alone (R83). -/
theorem slotOk_squeeze (P : Config.Params) (n : Nat) (x : PrngContext) (r : Squeezed) (hx : SlotOk P x)
    (hphase : phaseOf x = .finalized) (hr : squeeze P n x = .ok r) : SlotOk P r.slot ∧ phaseOf r.slot = .finalized := by
  obtain ⟨hbuffer, hlen, -, hfinalized⟩ := hx
  obtain ⟨hstate, hcursor⟩ := hfinalized hphase
  have hcursor' := cursorOk_squeeze P n x r hcursor hr
  rw [squeeze_slot P n x r hr] at hcursor' ⊢
  exact ⟨⟨hbuffer, hlen, fun h => absurd (hphase.symm.trans h) nofun, fun _ => ⟨hstate, hcursor'⟩⟩, hphase⟩

/-! ### The effect of a command -/

theorem effect_inject (c n : Nat) (data : List Byte) (x : PrngContext)
    (hroom : x.bufferLength + data.length ≤ Config.maxBufferSize) :
    effect (.inject c n) data x = .ok { slot := appended data x, out := [], requests := [] } := by
  rw [effect, absorb_eq_appended Config.params data x hroom]
  rfl

theorem effect_flip (c n : Nat) (data : List Byte) (x : PrngContext) (hroom : x.bufferLength ≤ Config.maxBufferSize) :
    effect (.flip c n) data x =
      .ok { slot := finalizeContext (Config.hash256 (absorbed x)) x, out := [], requests := [absorbed x] } := by
  rw [effect, ibRead_absorbed Config.params x hroom]
  rfl

/-- A command that its cell allows has an effect on a slot with the invariant: the slot keeps the invariant and goes to
the cell's phase (R89, R92 to R94). -/
theorem effect_of_slotOk (i : Instr) (data : List Byte) (x : PrngContext) (hx : SlotOk Config.params x)
    (hcell : tableStatus Config.params i x = .ok) (hdata : data.length = payloadLen i) :
    ∃ r, effect i data x = .ok r ∧ SlotOk Config.params r.slot ∧ phaseOf r.slot = tablePhase i := by
  obtain ⟨-, hlen, -, hfinalized⟩ := id hx
  cases i with
  | init c n => exact ⟨_, rfl, slotOk_freshContext _, rfl⟩
  | inject c n =>
    obtain ⟨hphase, hroom⟩ := (tableStatus_inject_eq_ok _ c n x).1 hcell
    rw [show n = data.length from hdata.symm] at hroom
    exact ⟨_, effect_inject c n data x hroom, slotOk_appended _ data x hx hphase hroom, hphase⟩
  | flip c n =>
    have hphase := (tableStatus_flip_eq_ok _ c n x).1 hcell
    have hinit := ((phaseOf_accumulating x).1 hphase).1
    exact ⟨_, effect_flip c n data x (hlen hinit), slotOk_finalizeContext _ x hx, (phaseOf_finalized _).2 ⟨hinit, rfl⟩⟩
  | extract c n =>
    have hphase := (tableStatus_extract_eq_ok _ c n x).1 hcell
    obtain ⟨-, hcursor⟩ := hfinalized hphase
    obtain ⟨r, hr⟩ := squeeze_of_cursorInRange _ n x (cursorInRange_of_cursorOk _ x hcursor)
    exact ⟨r, hr, slotOk_squeeze _ n x r hx hphase hr⟩

/-! ### The engine -/

theorem slotOk_of_engineOk (P : Config.Params) (s : State) (c : Nat) (x : PrngContext) (hs : EngineOk P s)
    (hx : s.slots[c]? = some x) : SlotOk P x := by
  obtain ⟨-, hslots⟩ := hs
  exact hslots x (List.mem_of_getElem? hx)

/-- Writing a slot that has the invariant keeps the engine's. -/
theorem engineOk_of_set (P : Config.Params) (s t : State) (c : Nat) (y : PrngContext) (hs : EngineOk P s)
    (hy : SlotOk P y) (ht : t.slots = s.slots.set c y) : EngineOk P t := by
  obtain ⟨hlen, hslots⟩ := hs
  refine ⟨by rw [ht, List.length_set, hlen], fun x hx => ?_⟩
  rw [ht] at hx
  obtain hold | rfl := List.mem_or_eq_of_mem_set hx
  · exact hslots x hold
  · exact hy

/-- A completed command has taken its payload whole (R41). -/
theorem payloadLen_le_of_exec (i : Instr) (s t : State) (h : exec i s = .next t) : payloadLen i ≤ s.din.length := by
  obtain ⟨-, -, -, -, hn, -⟩ := exec_moves i s t h
  exact hn

/-- A command keeps the engine's invariant: an error writes no slot, and an effect keeps the invariant of the slot that
it writes. -/
theorem exec_keeps_engineOk (i : Instr) (s t : State) (hs : EngineOk Config.params s) (h : exec i s = .next t) :
    EngineOk Config.params t := by
  have hn := payloadLen_le_of_exec i s t h
  cases completes_of_exec i s t h with
  | unnamed => exact hs
  | error => exact hs
  | ok x r hslot hcell heffect =>
    have hx := slotOk_of_engineOk _ s i.ctx x hs (getElem?_of_namedSlot _ s i.ctx x hslot)
    obtain ⟨r', heffect', hy, -⟩ := effect_of_slotOk i _ x hx hcell (List.length_take_of_le hn)
    cases heffect'.symm.trans heffect
    exact engineOk_of_set _ s _ i.ctx r.slot hs hy rfl

theorem hardwareReset_keeps_engineOk (P : Config.Params) (s : State) (hs : EngineOk P s) :
    EngineOk P (hardwareReset P s) := by
  obtain ⟨hlen, -⟩ := hs
  refine ⟨by simp [hlen], fun x hx => ?_⟩
  rw [hardwareReset_slots] at hx
  obtain ⟨c, -, rfl⟩ := List.mem_map.1 hx
  exact slotOk_unspecifiedContext P s.resets c

/-- Settles O17: hardware reset leaves slots with the invariant, the idle engine changes nothing, and a command keeps
it, whatever word it takes from CMD. -/
theorem stepKeepsEngineOk : Obligations.StepKeepsEngineOk := by
  intro s t hs h
  rw [step_eq] at h
  split at h
  · cases h
    exact hardwareReset_keeps_engineOk _ s hs
  · cases hcmd : s.cmd with
    | nil =>
      rw [hcmd] at h
      cases h
      exact hs
    | cons w rest =>
      rw [hcmd] at h
      exact exec_keeps_engineOk (decode w) { s with cmd := rest } t hs h

/-- Settles O12: all NCTX slots of the reset state are `atReset`, whose IB lists no byte. -/
theorem resetStateIsOk : Obligations.ResetStateIsOk := by
  refine ⟨List.length_replicate, fun x hx => ?_⟩
  rw [List.eq_of_mem_replicate hx]
  exact slotOk_atReset _

/-! ### The transition table -/

/-- Settles O19: the scheme takes the status from the cell; an error writes back the slot, and the effect of a command
on a slot with the invariant goes to the cell's phase. -/
theorem transitionTable : Obligations.TransitionTable := by
  intro i s x hs hc hx hready hdout hn
  have hslot := (namedSlot_eq_some Config.params s i.ctx x).2 ⟨hc, hx⟩
  by_cases hcell : tableStatus Config.params i x = .ok
  · have hxok := slotOk_of_engineOk _ s i.ctx x hs hx
    obtain ⟨r, heffect, -, hphase⟩ := effect_of_slotOk i _ x hxok hcell (List.length_take_of_le hn)
    refine ⟨succeeded i r s, r.slot, exec_of_completes i s _ hn hready hdout (.ok x r hslot hcell heffect), ?_, rfl,
      fun hne => absurd hcell hne, fun _ => hphase⟩
    rw [hcell]
    rfl
  · exact ⟨_, x, exec_of_completes i s _ hn hready hdout (.error x hslot hcell), rfl,
      (set_getElem?_self s.slots i.ctx x hx).symm, fun _ => rfl, fun hok => absurd hok hcell⟩

end Sys2Proof.Machine
end

section
/-!
PROOFS. The output stream of a slot (spec/44_laws_and_properties.md rules R95 to R99): a squeeze of `a + b` bytes is a
squeeze of `a` and then one of `b`, from any cursor; a slot at position `t` is what a squeeze of `t` bytes leaves of a
slot right after its FLIP; and from these two facts the position of a slot, the split of a request, and the output of
a shorter request as the beginning of that of a longer one.
-/

namespace Sys2Proof.Machine

/-! ### Blocks side by side -/

theorem counter_add_add (j : BitVec 64) (m i : Nat) :
    j + BitVec.ofNat 64 m + BitVec.ofNat 64 i = j + BitVec.ofNat 64 (m + i) := by
  rw [BitVec.ofNat_add, BitVec.add_assoc]

theorem blockRequests_add (d : Digest) (j : BitVec 64) (m k : Nat) :
    blockRequests d j (m + k) = blockRequests d j m ++ blockRequests d (j + BitVec.ofNat 64 m) k := by
  simp [blockRequests, List.range_add, counter_add_add]

theorem blockBytes_add (P : Config.Params) (d : Digest) (j : BitVec 64) (m k : Nat) :
    blockBytes P d j (m + k) = blockBytes P d j m ++ blockBytes P d (j + BitVec.ofNat 64 m) k := by
  simp [blockBytes, List.range_add, List.flatMap_map, counter_add_add]

/-- The blocks up to one more block: that block stands last. -/
theorem blockBytes_add_one (P : Config.Params) (d : Digest) (j : BitVec 64) (m : Nat) :
    blockBytes P d j (m + 1) = blockBytes P d j m ++ (blockAt P d (j + BitVec.ofNat 64 m)).toList := by
  rw [blockBytes_add, blockBytes_succ, blockBytes_zero, List.append_nil]

/-- What follows the first `k` bytes of some blocks, where `k` reaches into the last of them: the rest of that block. -/
theorem drop_blockBytes (P : Config.Params) (d : Digest) (j : BitVec 64) (m k : Nat) (hm : 0 < m)
    (hk : 32 * (m - 1) ≤ k) :
    (blockBytes P d j m).drop k =
      (blockAt P d (j + BitVec.ofNat 64 (m - 1))).toList.drop (k - 32 * (m - 1)) := by
  have hlast := blockBytes_add_one P d j (m - 1)
  rw [Nat.sub_add_cancel hm] at hlast
  rw [hlast, List.drop_append, blockBytes_length, List.drop_eq_nil_of_le (by simpa using hk), List.nil_append]

/-! ### The two parts of a squeeze -/

/-- Two parts of an EXTRACT as one. -/
def Squeezed.andThen (r r' : Squeezed) : Squeezed :=
  { slot := r'.slot, out := r.out ++ r'.out, requests := r.requests ++ r'.requests }

theorem andThen_assoc (r r' r'' : Squeezed) : (r.andThen r').andThen r'' = r.andThen (r'.andThen r'') := by
  simp only [Squeezed.andThen, List.append_assoc]

/-- `n` bytes that the cache holds (R78). -/
def drained (n : Nat) (x : PrngContext) : Squeezed :=
  { slot := { x with outputCachePosition := x.outputCachePosition + n }
    out := cacheSlice x.outputCache x.outputCachePosition n
    requests := [] }

/-- `k` bytes of new blocks, at least one of them: what R82 and R83 say of the part of an EXTRACT after the drain. -/
def generated (P : Config.Params) (k : Nat) (x : PrngContext) : Squeezed :=
  { slot := { x with
      outputCache := blockAt P x.state (x.counter + BitVec.ofNat 64 (blocksFor k - 1))
      outputCacheLength := 32
      outputCachePosition := k - 32 * (blocksFor k - 1)
      counter := x.counter + BitVec.ofNat 64 (blocksFor k) }
    out := (blockBytes P x.state x.counter (blocksFor k)).take k
    requests := blockRequests x.state x.counter (blocksFor k) }

/-- A squeeze that the leftover bytes serve only drains. -/
theorem squeeze_eq_drained (P : Config.Params) (n : Nat) (x : PrngContext)
    (h : 0 < leftover x → x.outputCachePosition + n ≤ 32) (hn : n ≤ leftover x) :
    squeeze P n x = .ok (drained n x) := squeeze_of_le P n x h hn

/-- A squeeze beyond the leftover bytes drains these and generates the rest (R77). -/
theorem squeeze_eq_drained_generated (P : Config.Params) (n : Nat) (x : PrngContext)
    (h : 0 < leftover x → x.outputCachePosition + leftover x ≤ 32) (hn : leftover x < n) :
    squeeze P n x = .ok ((drained (leftover x) x).andThen (generated P (n - leftover x) x)) :=
  squeeze_of_gt P n x h hn

@[simp] theorem drained_position (n : Nat) (x : PrngContext) :
    (drained n x).slot.outputCachePosition = x.outputCachePosition + n := rfl

@[simp] theorem drained_requests (n : Nat) (x : PrngContext) : (drained n x).requests = [] := rfl

@[simp] theorem leftover_drained (n : Nat) (x : PrngContext) : leftover (drained n x).slot = leftover x - n := by
  simp only [leftover, drained]
  omega

theorem generated_out (P : Config.Params) (k : Nat) (x : PrngContext) :
    (generated P k x).out = (blockBytes P x.state x.counter (blocksFor k)).take k := rfl

/-- The block generator does not look at the cursor. -/
@[simp] theorem generated_drained (P : Config.Params) (k n : Nat) (x : PrngContext) :
    generated P k (drained n x).slot = generated P k x := rfl

theorem drained_add (a b : Nat) (x : PrngContext) :
    drained (a + b) x = (drained a x).andThen (drained b (drained a x).slot) := by
  simp only [drained, Squeezed.andThen, cacheSlice_add, Nat.add_assoc, List.append_nil]

/-- `k` bytes are the whole of their blocks, but for less than one block. -/
theorem blocksFor_bounds (k : Nat) : k ≤ 32 * blocksFor k ∧ 32 * blocksFor k < k + 32 := by
  unfold blocksFor; omega

/-- After new blocks the cache holds what the rounding up to whole blocks leaves over, up to the end of OC (R83). -/
theorem leftover_generated (P : Config.Params) (k : Nat) (x : PrngContext) (hk : 0 < k) :
    k + leftover (generated P k x).slot = 32 * blocksFor k ∧
      (generated P k x).slot.outputCachePosition + leftover (generated P k x).slot = 32 := by
  have hpos := blocksFor_pos k hk
  have hround := blocksFor_bounds k
  simp only [leftover, generated]
  omega

/-- The bytes that the cache holds after new blocks are those that follow in the same blocks. -/
theorem drained_generated_out (P : Config.Params) (k b : Nat) (x : PrngContext) (hk : 0 < k) :
    (drained b (generated P k x).slot).out = ((blockBytes P x.state x.counter (blocksFor k)).drop k).take b := by
  have hpos := blocksFor_pos k hk
  have hround := blocksFor_bounds k
  rw [drop_blockBytes P x.state x.counter _ k hpos (by omega)]
  rfl

/-- The bytes of new blocks and all that the last of them leaves over are the whole blocks. -/
theorem generated_out_append_leftover (P : Config.Params) (k : Nat) (x : PrngContext) (hk : 0 < k) :
    (generated P k x).out ++ (drained (leftover (generated P k x).slot) (generated P k x).slot).out =
      blockBytes P x.state x.counter (blocksFor k) := by
  obtain ⟨hleft, -⟩ := leftover_generated P k x hk
  rw [drained_generated_out P k _ x hk, generated_out, ← List.take_add, hleft, List.take_of_length_le (by simp)]

/-- New blocks and the next bytes of the last of them: as many bytes of the same blocks. -/
theorem generated_add_leftover (P : Config.Params) (k b : Nat) (x : PrngContext) (hk : 0 < k)
    (hb : b ≤ leftover (generated P k x).slot) :
    generated P (k + b) x = (generated P k x).andThen (drained b (generated P k x).slot) := by
  obtain ⟨hleft, -⟩ := leftover_generated P k x hk
  have hround := blocksFor_bounds k
  have hblocks : blocksFor (k + b) = blocksFor k := by unfold blocksFor at *; omega
  have hcursor : k + b - 32 * (blocksFor k - 1) = k - 32 * (blocksFor k - 1) + b := by omega
  rw [Squeezed.andThen, drained_generated_out P k b x hk]
  simp only [generated, drained, hblocks, hcursor, List.take_add, List.append_nil]

/-- New blocks, all that the last of them leaves over, and further blocks: as many bytes of all these blocks. -/
theorem generated_add_generated (P : Config.Params) (k v : Nat) (x : PrngContext) (hk : 0 < k) (hv : 0 < v) :
    generated P (k + (leftover (generated P k x).slot + v)) x = (generated P k x).andThen
      ((drained (leftover (generated P k x).slot) (generated P k x).slot).andThen
        (generated P v (generated P k x).slot)) := by
  obtain ⟨hleft, -⟩ := leftover_generated P k x hk
  have hpos := blocksFor_pos v hv
  have hblocks : blocksFor (32 * blocksFor k + v) = blocksFor k + blocksFor v := by unfold blocksFor; omega
  have hlast : blocksFor k + blocksFor v - 1 = blocksFor k + (blocksFor v - 1) := by omega
  have hcursor : 32 * blocksFor k + v - 32 * (blocksFor k + (blocksFor v - 1)) = v - 32 * (blocksFor v - 1) := by omega
  have htake (A B : List Byte) (hA : A.length = 32 * blocksFor k) :
      (A ++ B).take (32 * blocksFor k + v) = A ++ B.take v := by
    rw [← hA, List.take_length_add_append]
  rw [← andThen_assoc, Squeezed.andThen, Squeezed.andThen, generated_out_append_leftover P k x hk, drained_requests,
    List.append_nil, ← Nat.add_assoc, hleft]
  simp only [generated, hblocks, hlast, hcursor, counter_add_add, blockRequests_add, blockBytes_add,
    htake _ _ (blockBytes_length _ _ _ _)]

/-- New blocks and then a squeeze: as many new blocks as both need. -/
theorem squeeze_generated (P : Config.Params) (k b : Nat) (x : PrngContext) (hk : 0 < k) :
    ∃ r, squeeze P b (generated P k x).slot = .ok r ∧ generated P (k + b) x = (generated P k x).andThen r := by
  obtain ⟨-, hend⟩ := leftover_generated P k x hk
  by_cases hb : b ≤ leftover (generated P k x).slot
  · exact ⟨_, squeeze_eq_drained P b _ (fun _ => by omega) hb, generated_add_leftover P k b x hk hb⟩
  · have hadd := generated_add_generated P k (b - leftover (generated P k x).slot) x hk (by omega)
    rw [Nat.add_sub_cancel' (by omega)] at hadd
    exact ⟨_, squeeze_eq_drained_generated P b _ (fun _ => by omega) (by omega), hadd⟩

/-- A squeeze that succeeds splits at any place: a squeeze of the first part, and one of the rest on the slot that it
leaves, with the same bytes and requests (R97). The cursor may stand anywhere. -/
theorem squeeze_split (P : Config.Params) (a b : Nat) (x : PrngContext) (r : Squeezed)
    (hr : squeeze P (a + b) x = .ok r) :
    ∃ r1 r2, squeeze P a x = .ok r1 ∧ squeeze P b r1.slot = .ok r2 ∧ r = r1.andThen r2 := by
  have hbound := squeeze_ok_bound P (a + b) x r hr
  by_cases hab : a + b ≤ leftover x
  · -- the leftover bytes serve both parts
    rw [squeeze_eq_drained P (a + b) x (fun _ => by omega) hab] at hr
    cases hr
    refine ⟨_, _, squeeze_eq_drained P a x (fun _ => by omega) (by omega),
      squeeze_eq_drained P b _ (fun h0 => ?_) ?_, drained_add a b x⟩
    · rw [leftover_drained] at h0
      rw [drained_position]
      omega
    · rw [leftover_drained]; omega
  · have hend (h0 : 0 < leftover x) : x.outputCachePosition + leftover x ≤ 32 := by
      have hread := hbound h0
      omega
    rw [squeeze_eq_drained_generated P (a + b) x hend (by omega)] at hr
    cases hr
    by_cases ha : a ≤ leftover x
    · -- the leftover bytes serve the first part
      have hrest : b - leftover (drained a x).slot = a + b - leftover x := by rw [leftover_drained]; omega
      refine ⟨_, _, squeeze_eq_drained P a x (fun h0 => ?_) ha,
        squeeze_eq_drained_generated P b _ (fun h0 => ?_) ?_, ?_⟩
      · have hread := hend h0
        omega
      · rw [leftover_drained] at h0 ⊢
        have hread := hend (by omega)
        rw [drained_position]
        omega
      · rw [leftover_drained]; omega
      · rw [← andThen_assoc, ← drained_add, generated_drained, hrest, leftover_drained, Nat.add_sub_cancel' ha]
    · -- the first part generates blocks
      obtain ⟨r2, hr2, hadd⟩ := squeeze_generated P (a - leftover x) b x (by omega)
      rw [show a - leftover x + b = a + b - leftover x by omega] at hadd
      exact ⟨_, r2, squeeze_eq_drained_generated P a x hend (by omega), hr2, by rw [hadd, andThen_assoc]⟩

/-! ### Sequences of EXTRACTs -/

/-- A squeeze of no bytes changes nothing (R81). -/
theorem squeeze_zero (P : Config.Params) (x : PrngContext) (r : Squeezed) (h : squeeze P 0 x = .ok r) :
    r = { slot := x, out := [], requests := [] } := by
  have hbound := squeeze_ok_bound P 0 x r h
  rw [squeeze_eq_drained P 0 x (by simpa using hbound) (Nat.zero_le _)] at h
  cases h
  simp [drained]

/-- EXTRACT leaves its slot in the phase it was in (R83). -/
theorem phaseOf_squeeze (P : Config.Params) (n : Nat) (x : PrngContext) (r : Squeezed) (h : squeeze P n x = .ok r) :
    phaseOf r.slot = phaseOf x := by
  rw [squeeze_slot P n x r h]
  rfl

/-- The engine after an EXTRACT from slot `c` that did `r`, and as many statuses OK as `k` says. -/
def extracted (c : Nat) (r : Squeezed) (k : Nat) (s : State) : State :=
  { s with
    slots := s.slots.set c r.slot
    rsp := s.rsp ++ List.replicate k .ok
    dout := s.dout ++ r.out
    hashRequests := s.hashRequests ++ r.requests }

theorem extracted_slot (c k : Nat) (r : Squeezed) (s : State) (hc : c < s.slots.length) :
    (extracted c r k s).slots[c]? = some r.slot := List.getElem?_set_self hc

theorem extracted_extracted (c k k' : Nat) (r r' : Squeezed) (s : State) :
    extracted c r' k' (extracted c r k s) = extracted c (r.andThen r') (k + k') s := by
  simp [extracted, Squeezed.andThen]

theorem exec_extract_eq_extracted (c n : Nat) (s : State) (x : PrngContext) (r : Squeezed) (hc : c < Config.nctx)
    (hx : s.slots[c]? = some x) (hphase : phaseOf x = .finalized) (hr : squeeze Config.params n x = .ok r)
    (hready : s.rspReady = true) (hdout : s.doutReady = true) :
    exec (.extract c n) s = .next (extracted c r 1 s) :=
  exec_extract_of_squeeze c n s x r hc hx hphase hr hready (.inl hdout)

/-- A sequence of EXTRACTs does what one squeeze of the sum of their lengths does, with a status for each (R97). -/
theorem execAll_extracts (c : Nat) (ns : List Nat) (s : State) (x : PrngContext) (r : Squeezed) (hc : c < Config.nctx)
    (hx : s.slots[c]? = some x) (hphase : phaseOf x = .finalized) (hr : squeeze Config.params ns.sum x = .ok r)
    (hready : s.rspReady = true) (hdout : s.doutReady = true) :
    execAll (ns.map (.extract c)) s = .next (extracted c r ns.length s) := by
  induction ns generalizing s x r with
  | nil =>
    obtain rfl := squeeze_zero _ x r hr
    simp [execAll, extracted, set_getElem?_self s.slots c x hx]
  | cons n ns ih =>
    rw [List.sum_cons] at hr
    obtain ⟨r1, r2, hr1, hr2, rfl⟩ := squeeze_split _ n ns.sum x r hr
    have hfirst := exec_extract_eq_extracted c n s x r1 hc hx hphase hr1 hready hdout
    have hslot := extracted_slot c 1 r1 s (List.getElem?_eq_some_iff.1 hx).1
    have hphase1 := (phaseOf_squeeze _ n x r1 hr1).trans hphase
    have hrest := ih (extracted c r1 1 s) r1.slot r2 hslot hphase1 hr2 hready hdout
    simp only [List.map_cons, execAll, hfirst, hrest, extracted_extracted, List.length_cons, Nat.add_comm 1]

/-- Settles O41: both sides are the one squeeze of the sum, which does not fault on a cursor in range; only the number
of statuses differs. -/
theorem splitExtractsEqualOne : Obligations.SplitExtractsEqualOne := by
  intro c ns s x hc hx hphase hcursor hready hdout
  obtain ⟨r, hr⟩ := squeeze_of_cursorInRange _ ns.sum x hcursor
  exact ⟨_, exec_extract_eq_extracted c ns.sum s x r hc hx hphase hr hready hdout,
    execAll_extracts c ns s x r hc hx hphase hr hready hdout⟩

/-! ### A shorter and a longer EXTRACT -/

/-- Settles O43: where the shorter EXTRACT fails it puts nothing; where it completes with OK the slot is Finalized, so
the longer one completes with OK too, and its squeeze splits at the shorter length. -/
theorem shorterExtractIsPrefix : Obligations.ShorterExtractIsPrefix := by
  intro c m n s t u hmn ht hu
  obtain ⟨_, _, out', -, -, hu'⟩ := exec_moves _ s u hu
  have of_failed_shorter (htout : t.dout = s.dout) :
      ∃ out out', t.dout = s.dout ++ out ∧ u.dout = s.dout ++ out' ∧ out <+: out' :=
    ⟨[], out', by rw [htout, List.append_nil], by rw [hu'], List.nil_prefix⟩
  obtain ⟨-, ⟨-, rfl⟩ | ⟨-, -, -, rfl⟩ | ⟨x, r, hx, hphase, hr, -, rfl⟩⟩ := extractOn_cases _ c m s t ht
  · exact of_failed_shorter rfl
  · exact of_failed_shorter rfl
  · obtain ⟨-, ⟨hx', -⟩ | ⟨x', hx', hphase', -⟩ | ⟨x', r', hx', -, hr', -, rfl⟩⟩ := extractOn_cases _ c n s u hu
    · cases hx.symm.trans hx'
    · cases hx.symm.trans hx'
      exact absurd hphase hphase'
    · cases hx.symm.trans hx'
      rw [← Nat.add_sub_cancel' hmn] at hr'
      obtain ⟨r1, r2, hr1, -, rfl⟩ := squeeze_split _ m (n - m) x r' hr'
      cases hr.symm.trans hr1
      exact ⟨r.out, r.out ++ r2.out, rfl, rfl, List.prefix_append _ _⟩

/-! ### Positions of the stream -/

theorem streamSlice_add (P : Config.Params) (d : Digest) (t n k : Nat) :
    streamSlice P d t (n + k) = streamSlice P d t n ++ streamSlice P d (t + n) k := by
  simp [streamSlice, List.range_add, Nat.add_assoc]

/-- Block `m` of the stream (R95). -/
theorem streamSlice_block (P : Config.Params) (d : Digest) (m : Nat) :
    streamSlice P d (32 * m) 32 = (blockAt P d (BitVec.ofNat 64 m)).toList := by
  refine List.ext_getElem (by simp [streamSlice, digestBytes]) fun i hi _ => ?_
  have hlt : i < 32 := by simpa [streamSlice] using hi
  have hblock : (32 * m + i) / 32 = m := by omega
  simp [streamSlice, streamByte, hblock, Nat.mod_eq_of_lt hlt]

/-- The stream is its blocks side by side (R95). -/
theorem blockBytes_eq_streamSlice (P : Config.Params) (d : Digest) (m : Nat) :
    blockBytes P d 0 m = streamSlice P d 0 (32 * m) := by
  induction m with
  | zero => rfl
  | succ m ih =>
    rw [blockBytes_add_one, ih, Nat.mul_succ, streamSlice_add, Nat.zero_add, streamSlice_block, zero_add]

theorem take_streamSlice (P : Config.Params) (d : Digest) (t n k : Nat) (h : k ≤ n) :
    (streamSlice P d t n).take k = streamSlice P d t k := by
  rw [streamSlice, ← List.map_take, List.take_range, min_eq_left h, streamSlice]

/-- A slot as it was right after its FLIP, at position 0; the cache keeps its bytes (R75). -/
def rewound (x : PrngContext) : PrngContext :=
  { x with counter := 0, outputCachePosition := 0, outputCacheLength := 0 }

/-- The slot at position `t` of its stream: what the position fixes, R96 says. -/
def positioned (P : Config.Params) (t : Nat) (x : PrngContext) : PrngContext :=
  if t = 0 then rewound x
  else { x with
    counter := BitVec.ofNat 64 (blocksFor t)
    outputCacheLength := 32
    outputCache := blockAt P x.state (BitVec.ofNat 64 (blocksFor t - 1))
    outputCachePosition := t - 32 * (blocksFor t - 1) }

/-- A slot is at position `t` exactly where moving it there changes nothing. -/
theorem atPosition_iff_positioned (P : Config.Params) (x : PrngContext) (t : Nat) :
    AtPosition P x t ↔ positioned P t x = x := by
  unfold AtPosition positioned
  split
  · constructor
    · rintro ⟨hcounter, hlen, hpos⟩
      cases x
      simp_all [rewound]
    · intro h
      rw [← h]
      exact ⟨rfl, rfl, rfl⟩
  · constructor
    · rintro ⟨hcounter, hlen, hcache, hpos⟩
      cases x
      simp_all
    · intro h
      rw [← h]
      exact ⟨rfl, rfl, rfl, rfl⟩

theorem positioned_state (P : Config.Params) (t : Nat) (x : PrngContext) : (positioned P t x).state = x.state := by
  unfold positioned
  split <;> rfl

theorem phaseOf_positioned (P : Config.Params) (t : Nat) (x : PrngContext) :
    phaseOf (positioned P t x) = phaseOf x := by
  unfold positioned
  split <;> rfl

/-- Moving a slot to a position puts it there (R96). -/
theorem atPosition_positioned (P : Config.Params) (t : Nat) (x : PrngContext) :
    AtPosition P (positioned P t x) t := by
  rw [atPosition_iff_positioned]
  unfold positioned
  split <;> rfl

/-- A squeeze of `t` bytes right after FLIP delivers the first `t` bytes of the stream and leaves the slot at position
`t` (R95, R96). -/
theorem squeeze_rewound (P : Config.Params) (t : Nat) (x : PrngContext) :
    squeeze P t (rewound x) = .ok
      { slot := positioned P t x
        out := streamSlice P x.state 0 t
        requests := blockRequests x.state 0 (blocksFor t) } := by
  have hleft : leftover (rewound x) = 0 := rfl
  obtain rfl | ht := Nat.eq_zero_or_pos t
  · rw [squeeze_eq_drained P 0 _ (fun h => absurd h (by omega)) (Nat.zero_le _)]
    simp [drained, positioned, rewound, streamSlice]
  · rw [squeeze_eq_drained_generated P t _ (fun h => absurd h (by omega)) (by omega), hleft, Nat.sub_zero]
    have hround := blocksFor_bounds t
    have hbytes := take_streamSlice P x.state 0 (32 * blocksFor t) t (by omega)
    rw [← blockBytes_eq_streamSlice] at hbytes
    simpa [drained, generated, Squeezed.andThen, positioned, rewound, ht.ne'] using hbytes

/-- EXTRACT from position `t`: a slot there is what a squeeze of `t` bytes leaves, so the bytes and the requests are
those that a squeeze of `t + n` bytes has after the first `t` (R96). -/
theorem squeeze_of_atPosition (P : Config.Params) (n t : Nat) (x : PrngContext) (h : AtPosition P x t) :
    squeeze P n x = .ok
      { slot := positioned P (t + n) x
        out := streamSlice P x.state t n
        requests := blockRequests x.state (BitVec.ofNat 64 (blocksFor t)) (blocksFor (t + n) - blocksFor t) } := by
  obtain ⟨r1, r2, hr1, hr2, hr⟩ := squeeze_split P t n _ _ (squeeze_rewound P (t + n) x)
  cases (squeeze_rewound P t x).symm.trans hr1
  rw [(atPosition_iff_positioned P x t).1 h] at hr2
  rw [hr2]
  have hblocks : blocksFor (t + n) = blocksFor t + (blocksFor (t + n) - blocksFor t) := by unfold blocksFor; omega
  rw [hblocks, blockRequests_add, streamSlice_add, Nat.zero_add, zero_add] at hr
  simp only [Squeezed.andThen, Squeezed.mk.injEq, List.append_cancel_left_eq] at hr
  obtain ⟨hslot, hout, hrequests⟩ := hr
  rw [hslot, hout, hrequests]

/-- A completed FLIP with status OK leaves its slot Finalized at position 0 (R74, R96). -/
theorem flip_atPosition_zero (c n : Nat) (s t : State) (y : PrngContext) (h : exec (.flip c n) s = .next t)
    (hok : t.rsp = s.rsp ++ [.ok]) (hy : t.slots[c]? = some y) :
    phaseOf y = .finalized ∧ AtPosition Config.params y 0 := by
  obtain ⟨-, ⟨-, rfl⟩ | ⟨x, -, -, rfl⟩ | ⟨x, hx, hphase, -, rfl⟩⟩ := flipOn_cases _ c n _ _ h
  · simp at hok
  · simp at hok
  · have hc := (List.getElem?_eq_some_iff.1 (getElem?_of_namedSlot _ s c x hx)).1
    cases (List.getElem?_set_self hc).symm.trans hy
    exact ⟨(phaseOf_finalized _).2 ⟨((phaseOf_accumulating x).1 hphase).1, rfl⟩, rfl, rfl, rfl⟩

/-- Settles O40, by the position that FLIP leaves and the squeeze from a position. -/
theorem extractDeliversTheStream : Obligations.ExtractDeliversTheStream := by
  refine ⟨flip_atPosition_zero, fun c n t s x hc hx hphase hpos hready hdout => ?_⟩
  have hr := squeeze_of_atPosition Config.params n t x hpos
  exact ⟨_, exec_extract_eq_extracted c n s x _ hc hx hphase hr hready hdout, atPosition_positioned _ _ x,
    positioned_state _ _ x, (phaseOf_positioned _ _ x).trans hphase⟩

/-- Settles O42: the sequence is one squeeze of the sum (R97), here from position 0. -/
theorem extractsAfterFlipDeliverTheStream : Obligations.ExtractsAfterFlipDeliverTheStream := by
  intro c ns s x hc hx hphase hpos hready hdout
  have hr := squeeze_of_atPosition Config.params ns.sum 0 x hpos
  rw [Nat.zero_add] at hr
  refine ⟨_, _, execAll_extracts c ns s x _ hc hx hphase hr hready hdout, rfl, rfl, rfl, rfl, positioned_state _ _ x,
    atPosition_positioned _ _ x, fun hsum => ?_⟩
  rw [positioned, if_pos hsum]
  rfl

end Sys2Proof.Machine
end

section
/-!
PROOFS. Incremental absorption (spec/44_laws_and_properties.md rule R100): a sequence of INJECTs that fit leaves what
one INJECT of the concatenated payloads leaves, and FLIP then hashes the concatenation (R73, R74).
-/

namespace Sys2Proof.Machine

/-- The absorbed bytes are those absorbed before and then the payload (R70). -/
theorem absorbed_appended (data : List Byte) (x : PrngContext) (hwf : Memory.wf x.inputBuffer = true) :
    absorbed (appended data x) = absorbed x ++ data :=
  readBytes_append x.inputBuffer x.bufferLength data hwf

/-- One sequence of commands after another. -/
theorem execAll_append (is js : List Instr) (s t : State) (h : execAll is s = .next t) :
    execAll (is ++ js) s = execAll js t := by
  induction is generalizing s with
  | nil =>
    cases h
    rfl
  | cons i is ih =>
    rw [List.cons_append, execAll]
    rw [execAll] at h
    split at h
    · exact ih _ h
    · cases h
    · cases h

/-- The engine after `k` INJECTs that together took the payload `data` and left `rest` on DIN, where slot `c` held
`x`. -/
def injectedAll (c k : Nat) (data rest : List Byte) (x : PrngContext) (s : State) : State :=
  { s with
    slots := s.slots.set c (appended data x)
    din := rest
    rsp := s.rsp ++ List.replicate k .ok }

/-- An INJECT of the first bytes of DIN. -/
theorem injected_of_din (c : Nat) (data rest : List Byte) (x : PrngContext) (s : State) (hdin : s.din = data ++ rest) :
    injected c data.length x s = injectedAll c 1 data rest x s := by
  simp [injected, injectedAll, setSlot, putStatus, hdin]

theorem injectedAll_injectedAll (c k k' : Nat) (xs ys rest rest' : List Byte) (x : PrngContext) (s : State) :
    injectedAll c k' ys rest' (appended xs x) (injectedAll c k xs rest x s) =
      injectedAll c (k + k') (xs ++ ys) rest' x s := by
  simp [injectedAll, appended_append]

/-- A sequence of INJECTs whose payloads fit together does what one INJECT of their concatenation does, with a status
for each (R73, R100). -/
theorem execAll_injects (c : Nat) (xs : List (List Byte)) (rest : List Byte) (s : State) (x : PrngContext)
    (hc : c < Config.nctx) (hx : s.slots[c]? = some x) (hphase : phaseOf x = .accumulating)
    (hroom : x.bufferLength + xs.flatten.length ≤ Config.maxBufferSize) (hdin : s.din = xs.flatten ++ rest)
    (hready : s.rspReady = true) :
    execAll (xs.map fun p => .inject c p.length) s = .next (injectedAll c xs.length xs.flatten rest x s) := by
  induction xs generalizing s x with
  | nil =>
    have hrest : s.din = rest := hdin
    simp [execAll, injectedAll, set_getElem?_self s.slots c x hx, ← hrest]
  | cons p ps ih =>
    rw [List.flatten_cons, List.append_assoc] at hdin
    rw [List.flatten_cons, List.length_append] at hroom
    have hfirst := exec_inject_of_room c p.length s x hc hx hphase (by omega) hready (by simp [hdin])
    rw [injected_of_din c p _ x s hdin] at hfirst
    have hslot : (injectedAll c 1 p (ps.flatten ++ rest) x s).slots[c]? = some (appended p x) :=
      List.getElem?_set_self (List.getElem?_eq_some_iff.1 hx).1
    have hrest := ih _ (appended p x) hslot hphase (by rw [appended_bufferLength]; omega) rfl hready
    simp only [List.map_cons, execAll, hfirst, hrest, injectedAll_injectedAll, List.length_cons, List.flatten_cons,
      Nat.add_comm 1]

/-- Settles O44: the INJECTs leave the slot with all payloads appended, whose absorbed bytes FLIP hashes. -/
theorem flipHashesTheConcatenation : Obligations.FlipHashesTheConcatenation := by
  intro c n xs rest s x hc hx hphase hwf hroom hdin hready
  have hinjects := execAll_injects c xs rest s x hc hx hphase hroom hdin hready
  have hslot : (injectedAll c xs.length xs.flatten rest x s).slots[c]? = some (appended xs.flatten x) :=
    List.getElem?_set_self (List.getElem?_eq_some_iff.1 hx).1
  have hflip := (exec_flip_of_accumulating c n _ _ hc hslot hphase hroom).trans (complete_of_ready _ hready)
  rw [absorbed_appended _ x hwf] at hflip
  refine ⟨_, finalizeContext (Config.hash256 (absorbed x ++ xs.flatten)) (appended xs.flatten x),
    (execAll_append _ _ s _ hinjects).trans (by rw [execAll, hflip]; rfl), ?_, ?_, rfl, rfl, rfl, ?_⟩
  · simp [injectedAll]
  · exact (phaseOf_finalized _).2 ⟨((phaseOf_accumulating x).1 hphase).1, rfl⟩
  · simp [injectedAll, List.replicate_succ']

end Sys2Proof.Machine
end

section
/-!
PROOFS. Error statuses (spec/60_exceptions.md rules R105 to R112). The slot that CTX names, or its absence, alone picks
the status of a command; with any status but OK the command is then the error entry of R110.
-/

namespace Sys2Proof.Machine

/-! ### The error cells of the transition table -/

/-- The error of a command whose CTX names no slot is no cell of R89 (R105). -/
theorem tableStatus_ne_invalidArgument (P : Config.Params) (i : Instr) (x : PrngContext) :
    tableStatus P i x ≠ .invalidArgument := by
  cases i with
  | init c n => exact nofun
  | inject c n =>
    cases hphase : phaseOf x with
    | uninitialized => simp [tableStatus, hphase]
    | finalized => simp [tableStatus, hphase]
    | accumulating =>
      by_cases hroom : x.bufferLength + n ≤ P.maxBufferSize <;> simp [tableStatus, hphase, hroom]
  | flip c n => cases hphase : phaseOf x <;> simp [tableStatus, hphase]
  | extract c n => cases hphase : phaseOf x <;> simp [tableStatus, hphase]

/-- The slot is out of phase for the command: INJECT and FLIP want Accumulating, EXTRACT wants Finalized, and INIT takes
any phase (R106). -/
def OutOfPhase : Instr → PrngContext → Prop
  | .init _ _, _ => False
  | .inject _ _, x => phaseOf x ≠ .accumulating
  | .flip _ _, x => phaseOf x ≠ .accumulating
  | .extract _ _, x => phaseOf x ≠ .finalized

/-- The cells of R89 that are InvalidState are those out of phase, whatever LEN (R106). -/
theorem tableStatus_eq_invalidState (P : Config.Params) (i : Instr) (x : PrngContext) :
    tableStatus P i x = .invalidState ↔ OutOfPhase i x := by
  cases i with
  | init c n => simp [tableStatus, OutOfPhase]
  | inject c n =>
    cases hphase : phaseOf x with
    | uninitialized => simp [tableStatus, OutOfPhase, hphase]
    | finalized => simp [tableStatus, OutOfPhase, hphase]
    | accumulating =>
      by_cases hroom : x.bufferLength + n ≤ P.maxBufferSize <;> simp [tableStatus, OutOfPhase, hphase, hroom]
  | flip c n => cases hphase : phaseOf x <;> simp [tableStatus, OutOfPhase, hphase]
  | extract c n => cases hphase : phaseOf x <;> simp [tableStatus, OutOfPhase, hphase]

/-- The one cell of R89 that is CapacityExceeded (R107). -/
theorem tableStatus_eq_capacityExceeded (P : Config.Params) (i : Instr) (x : PrngContext) :
    tableStatus P i x = .capacityExceeded ↔
      ∃ c n, i = .inject c n ∧ phaseOf x = .accumulating ∧ P.maxBufferSize < x.bufferLength + n := by
  cases i with
  | init c n => simp [tableStatus]
  | inject c n => cases hphase : phaseOf x <;> simp [tableStatus, hphase]
  | flip c n => cases hphase : phaseOf x <;> simp [tableStatus, hphase]
  | extract c n => cases hphase : phaseOf x <;> simp [tableStatus, hphase]

/-! ### The status of a command and the error entry -/

/-- The status of a command, by the slot that its CTX names: InvalidArgument where there is none, else its cell of R89
(R105, R109). -/
def statusOn (i : Instr) : Option PrngContext → Status
  | none => .invalidArgument
  | some x => tableStatus Config.params i x

/-- A status other than InvalidArgument is a cell of R89 for a slot that CTX names. -/
theorem exists_slot_of_statusOn (i : Instr) (slot : Option PrngContext) (e : Status) (h : statusOn i slot = e)
    (he : e ≠ .invalidArgument) : ∃ x, slot = some x ∧ tableStatus Config.params i x = e := by
  cases slot with
  | none => exact absurd h.symm he
  | some x => exact ⟨x, rfl, h⟩

/-- A completed command has put its status, and with an error it has done nothing else but take its payload (R110). -/
theorem status_of_exec (i : Instr) (s t : State) (h : exec i s = .next t) :
    t.rsp = s.rsp ++ [statusOn i (namedSlot Config.params s i.ctx)] ∧
      (statusOn i (namedSlot Config.params s i.ctx) ≠ .ok →
        t = failed i (statusOn i (namedSlot Config.params s i.ctx)) s) := by
  cases completes_of_exec i s t h with
  | unnamed hslot =>
    rw [hslot]
    exact ⟨rfl, fun _ => rfl⟩
  | error x hslot _ =>
    rw [hslot]
    exact ⟨rfl, fun _ => rfl⟩
  | ok x r hslot hcell _ =>
    rw [hslot, statusOn, hcell]
    exact ⟨rfl, fun hne => absurd rfl hne⟩

/-- The status that a completed command has put is the one that its slot picks. -/
theorem statusOn_of_exec (i : Instr) (s t : State) (e : Status) (h : exec i s = .next t) (ht : t.rsp = s.rsp ++ [e]) :
    statusOn i (namedSlot Config.params s i.ctx) = e := by
  obtain ⟨hrsp, -⟩ := status_of_exec i s t h
  simpa using hrsp.symm.trans ht

/-- A command whose slot picks an error is the error entry, whether or not the host takes output bytes (R110). -/
theorem exec_of_error (i : Instr) (s : State) (e : Status) (hstatus : statusOn i (namedSlot Config.params s i.ctx) = e)
    (he : e ≠ .ok) (hready : s.rspReady = true) (hn : payloadLen i ≤ s.din.length) :
    exec i s = .next (failed i e s) := by
  rw [exec_eq_run, runCommand_of_payload i s hn]
  subst hstatus
  cases hslot : namedSlot Config.params s i.ctx with
  | none => exact raise_of_ready _ _ hready
  | some x =>
    rw [hslot] at he
    rw [runOnSlot_of_error i _ x _ he]
    exact raise_of_ready _ _ hready

/-- The status of a command on a slot that exists is its cell of R89. -/
theorem statusOn_of_slot (i : Instr) (s : State) (x : PrngContext) (hc : i.ctx < Config.nctx)
    (hx : s.slots[i.ctx]? = some x) :
    statusOn i (namedSlot Config.params s i.ctx) = tableStatus Config.params i x := by
  rw [(namedSlot_eq_some Config.params s i.ctx x).2 ⟨hc, hx⟩, statusOn]

/-! ### The three errors -/

/-- Settles O20: CTX `>= NCTX` names no slot, whose status is InvalidArgument; CTX below it names one, and no cell of
R89 is InvalidArgument; the six bits of CTX are below 64. -/
theorem ctxOutOfRangeIsInvalidArgument : Obligations.CtxOutOfRangeIsInvalidArgument := by
  refine ⟨fun i s hc hready hn => ?_, fun i s t hc hlen h ht => ?_, fun P i s hP hlen hwf hnone => ?_⟩
  · have hstatus : statusOn i (namedSlot Config.params s i.ctx) = .invalidArgument := by
      rw [namedSlot_eq_none_of_le Config.params s i.ctx hc, statusOn]
    exact exec_of_error i s _ hstatus nofun hready hn
  · have hx := List.getElem?_eq_getElem (hlen ▸ hc : i.ctx < s.slots.length)
    have hstatus := statusOn_of_exec i s t _ h ht
    rw [statusOn_of_slot i s _ hc hx] at hstatus
    exact tableStatus_ne_invalidArgument _ i _ hstatus
  · obtain ⟨hctx, -⟩ := (wellFormed_iff i).1 hwf
    have hout : P.nctx ≤ i.ctx := (namedSlot_eq_none P s i.ctx hlen).1 hnone
    omega

/-- Settles O21: InvalidState is the cell of R89 of the commands out of phase, and INIT never is. -/
theorem outOfPhaseIsInvalidState : Obligations.OutOfPhaseIsInvalidState := by
  refine ⟨fun c n s x hc hx hready => ?_, fun c n s t h ht => ?_⟩
  · have enters (i : Instr) (hi : i.ctx = c) (hphase : OutOfPhase i x) (hn : payloadLen i ≤ s.din.length) :
        exec i s = .next (failed i .invalidState s) := by
      subst hi
      have hcell := (tableStatus_eq_invalidState Config.params i x).2 hphase
      exact exec_of_error i s _ ((statusOn_of_slot i s x hc hx).trans hcell) nofun hready hn
    exact ⟨fun hphase hn => enters (.inject c n) rfl hphase hn,
      fun hphase => enters (.flip c n) rfl hphase (Nat.zero_le _),
      fun hphase => enters (.extract c n) rfl hphase (Nat.zero_le _)⟩
  · obtain ⟨x, -, hcell⟩ := exists_slot_of_statusOn _ _ _ (statusOn_of_exec _ s t _ h ht) nofun
    exact (tableStatus_eq_invalidState Config.params (.init c n) x).1 hcell

/-- Settles O22: of the cells of R89 only that of an INJECT without room is CapacityExceeded, and the status of a
command that names no slot is not. -/
theorem oversizedInjectIsCapacityExceeded : Obligations.OversizedInjectIsCapacityExceeded := by
  refine ⟨fun c n s x hc hx hphase hfull hready hn => ?_, fun i s t h ht => ?_⟩
  · have hcell := (tableStatus_eq_capacityExceeded Config.params (.inject c n) x).2 ⟨c, n, rfl, hphase, hfull⟩
    have hstatus := (statusOn_of_slot (.inject c n) s x hc hx).trans hcell
    exact exec_of_error (.inject c n) s _ hstatus nofun hready hn
  · obtain ⟨x, hslot, hcell⟩ := exists_slot_of_statusOn _ _ _ (statusOn_of_exec i s t _ h ht) nofun
    obtain ⟨c, n, rfl, hphase, hfull⟩ := (tableStatus_eq_capacityExceeded Config.params i x).1 hcell
    exact ⟨c, n, x, rfl, getElem?_of_namedSlot _ s c x hslot, hphase, hfull⟩

/-! ### Error entry and its repetition -/

/-- Settles O23, by what a completed command has done; the status on RSP is the one that its slot picks. -/
theorem errorChangesNothing : Obligations.ErrorChangesNothing := by
  intro i s t e h ht he
  obtain ⟨-, hfailed⟩ := status_of_exec i s t h
  rw [statusOn_of_exec i s t e h ht] at hfailed
  exact hfailed he

/-- Settles O24: the error has left the slots as they were (R110), so the same slot picks the same error again. -/
theorem failedCommandFailsAgain : Obligations.FailedCommandFailsAgain := by
  intro i s t u e h ht he hslots hready hn
  have hstatus := statusOn_of_exec i s t e h ht
  have hsame : u.slots = s.slots := by rw [hslots, errorChangesNothing i s t e h ht he]
  rw [← namedSlot_congr Config.params u s i.ctx hsame] at hstatus
  exact exec_of_error i u e hstatus he hready hn

end Sys2Proof.Machine
end

section
/-!
PROOFS. Reset and waiting (spec/70_reset_and_hazards.md rules R120, R126, R133). With the invariant every command whose
payload is there comes to one of two endings, the error entry or the completion of an effect; each answers a next state
or waits for the host, and a command without its payload waits for that.
-/

namespace Sys2Proof.Machine

/-! ### Hardware reset and the idle engine -/

/-- Settles O13: the step is the hardware reset, which fills each slot with a content whose `initialized` is 0. -/
theorem hardwareResetStep : Obligations.HardwareResetStep := by
  intro s hreset
  refine ⟨hardwareReset Config.params s, ?_, by simp, fun x hx => ?_, rfl, rfl, rfl, rfl, rfl, rfl⟩
  · rw [step_eq, if_pos hreset]
  · rw [hardwareReset_slots] at hx
    obtain ⟨c, -, rfl⟩ := List.mem_map.1 hx
    exact ⟨rfl, rfl⟩

/-- Settles O15: without a reset the step looks at CMD, which holds no word. -/
theorem idleEngineStays : Obligations.IdleEngineStays := by
  intro s hreset hcmd
  rw [step_eq, hreset, hcmd]
  rfl

/-! ### The endings of a command -/

/-- The payload is taken before anything else is looked at, so a command without it waits in every state (R41, R126). -/
theorem exec_of_missing_payload (i : Instr) (s : State) (h : s.din.length < payloadLen i) :
    exec i s = .fault .waitingForPayload := by
  rw [exec_eq_run, runCommand, (takePayload_eq_none _ s).2 h]

/-- In an engine with the invariant a command that has its payload comes to its error entry or completes an effect: no
access of it leaves IB or OC (R33, R34). -/
theorem exec_of_engineOk (i : Instr) (s : State) (hs : EngineOk Config.params s) (hn : payloadLen i ≤ s.din.length) :
    (∃ e, exec i s = raise e { s with din := s.din.drop (payloadLen i) }) ∨
    (∃ r, exec i s = finish i.ctx (.ok r) { s with din := s.din.drop (payloadLen i) }) := by
  rw [exec_eq_run, runCommand_of_payload i s hn]
  cases hslot : namedSlot Config.params s i.ctx with
  | none => exact .inl ⟨.invalidArgument, rfl⟩
  | some x =>
    by_cases hcell : tableStatus Config.params i x = .ok
    · have hx := slotOk_of_engineOk _ s i.ctx x hs (getElem?_of_namedSlot _ s i.ctx x hslot)
      obtain ⟨r, heffect, -⟩ := effect_of_slotOk i _ x hx hcell (List.length_take_of_le hn)
      exact .inr ⟨r, by rw [runOnSlot_of_ok i _ x _ hcell, heffect]⟩
    · exact .inl ⟨_, runOnSlot_of_error i _ x _ hcell⟩

/-- EXTRACT of a Finalized slot completes what its squeeze answers (R77). -/
theorem exec_extract_of_finalized (c n : Nat) (s : State) (x : PrngContext) (hc : c < Config.nctx)
    (hx : s.slots[c]? = some x) (hphase : phaseOf x = .finalized) :
    exec (.extract c n) s = finish c (squeeze Config.params n x) s := by
  have hslot := (namedSlot_eq_some Config.params s c x).2 ⟨hc, hx⟩
  have hcell := (tableStatus_extract_eq_ok Config.params c n x).2 hphase
  rw [exec_eq_run, runCommand_of_no_payload _ s rfl, Instr.ctx, hslot, runOnSlot_of_ok _ _ x s hcell]
  rfl

/-! ### Waiting for the host -/

/-- A completion whose status the host does not take waits, with output bytes or without (R126). -/
theorem completeWithBytes_of_not_rspReady (out : List Byte) (s : State) (h : s.rspReady = false) :
    completeWithBytes out s = .fault .waitingForRsp := by
  simp [completeWithBytes, h]

/-- A completion whose status is taken waits where it has output bytes that the host does not take (R126). -/
theorem completeWithBytes_of_not_doutReady (out : List Byte) (s : State) (hout : out ≠ []) (hready : s.rspReady = true)
    (h : s.doutReady = false) : completeWithBytes out s = .fault .waitingForDout := by
  simp [completeWithBytes, hready, h, hout]

/-- Settles O27: both endings of a command put the status first; the squeeze of a Finalized slot with the invariant
delivers all LEN bytes, so there are some that the host has to take. -/
theorem engineWaitsForTheHost : Obligations.EngineWaitsForTheHost := by
  refine ⟨fun c n s h => exec_of_missing_payload (.inject c n) s h, fun i s hs hn hrsp => ?_,
    fun c n s x hs hc hx hphase hpos hready hdout => ?_⟩
  · obtain ⟨e, hraise⟩ | ⟨r, hfinish⟩ := exec_of_engineOk i s hs hn
    · exact hraise.trans (respond_of_not_ready e _ hrsp)
    · exact hfinish.trans (completeWithBytes_of_not_rspReady _ _ hrsp)
  · obtain ⟨-, -, -, hfinalized⟩ := slotOk_of_engineOk _ s c x hs hx
    obtain ⟨-, hcursor⟩ := hfinalized hphase
    obtain ⟨r, hr⟩ := squeeze_of_cursorInRange _ n x (cursorInRange_of_cursorOk _ x hcursor)
    have hout : r.out ≠ [] := List.ne_nil_of_length_pos (squeeze_out_length _ n x r hr ▸ hpos)
    rw [exec_extract_of_finalized c n s x hc hx hphase, hr]
    exact completeWithBytes_of_not_doutReady _ _ hout hready hdout

/-! ### Safe answers -/

theorem safeAnswer_next (t : State) : SafeAnswer (.next t) := .inl ⟨t, rfl⟩

theorem safeAnswer_respond (e : Status) (s : State) : SafeAnswer (respond e s) := by
  cases hrsp : s.rspReady with
  | true => exact respond_of_ready e s hrsp ▸ safeAnswer_next _
  | false => exact .inr (.inr (.inl (respond_of_not_ready e s hrsp)))

theorem safeAnswer_completeWithBytes (out : List Byte) (s : State) : SafeAnswer (completeWithBytes out s) := by
  cases hrsp : s.rspReady with
  | false => exact .inr (.inr (.inl (completeWithBytes_of_not_rspReady out s hrsp)))
  | true =>
    by_cases htaken : s.doutReady = true ∨ out = []
    · exact .inl ⟨_, (completeWithBytes_eq_next out s _).2 ⟨hrsp, htaken, rfl⟩⟩
    · obtain ⟨hdout, hout⟩ := not_or.1 htaken
      exact .inr (.inr (.inr (completeWithBytes_of_not_doutReady out s hout hrsp (Bool.eq_false_of_not_eq_true hdout))))

/-- A command in an engine with the invariant waits for its payload or comes to one of its two endings. -/
theorem safeAnswer_exec (i : Instr) (s : State) (hs : EngineOk Config.params s) : SafeAnswer (exec i s) := by
  obtain hmissing | hn := Nat.lt_or_ge s.din.length (payloadLen i)
  · exact .inr (.inl (exec_of_missing_payload i s hmissing))
  · obtain ⟨e, hraise⟩ | ⟨r, hfinish⟩ := exec_of_engineOk i s hs hn
    · exact hraise ▸ safeAnswer_respond e _
    · exact hfinish ▸ safeAnswer_completeWithBytes r.out _

/-- Settles O18: a hardware reset and the idle engine answer a next state, and the command that any word of CMD stands
for is safe. -/
theorem stepOnlyWaitsForTheHost : Obligations.StepOnlyWaitsForTheHost := by
  intro s hs
  rw [step_eq]
  split
  · exact safeAnswer_next _
  · cases s.cmd with
    | nil => exact safeAnswer_next s
    | cons w rest => exact safeAnswer_exec (decode w) { s with cmd := rest } hs

end Sys2Proof.Machine
end
